-- ==== Sys2Proof/Word.lean ====
section
/-! DEFINITION. The words of the FCB: bytes, window offsets, bus words, and the `_LO`/`_HI` pairs. -/

namespace Sys2Proof

/-- A byte, 8 bits, unsigned (00_scope.md R12). -/
abbrev Byte := BitVec 8

/-- An offset into the register window, 0x000 to 0x7FF: 11 bits (20_memory.md R50, 30_encoding.md R100). -/
abbrev Offset := BitVec 11

/-- A bus word: one host access written as a number of 20 bits (30_encoding.md R100). -/
abbrev BusWord := BitVec 20

/-- A 16-bit register is two independent bytes, `_LO` and `_HI` (20_memory.md R56). -/
structure Pair where
  lo : Byte
  hi : Byte
  deriving DecidableEq, Repr

end Sys2Proof
end

