-- ==== Sys2Proof/Syntax.lean ====
section
/-! DEFINITION. The instructions: one constructor for each row of spec/opcode_table.json. -/

namespace Sys2Proof

/-- The five CMD8 rows are what the FCB sequencer performs; the two BUS20 rows are what the host performs. -/
inductive Instr where
  /-- CRC_INIT: clear the CRC accumulator (40_crc.md R116). -/
  | crcInit
  /-- CRC_UPDATE: feed CRC_DIN into the accumulator (40_crc.md R117). -/
  | crcUpdate
  /-- DECODE: validate the frame in IN_BUF (41_framing.md R131). -/
  | decode
  /-- ENCODE: build a frame in OUT_BUF (41_framing.md R151). -/
  | encode
  /-- ILLEGAL: any other command code `op` (30_encoding.md R83). -/
  | illegal (op : Byte)
  /-- `wr OFF, V`: the host writes one byte (20_memory.md R53, 30_encoding.md R100). -/
  | wr (off : Offset) (v : Byte)
  /-- `rd OFF`: the host reads one byte (20_memory.md R53, 30_encoding.md R100). -/
  | rd (off : Offset)
  deriving DecidableEq, Repr

end Sys2Proof
end

