-- ==== Sys2Proof/WellFormed.lean ====
section
/-! DEFINITION. Which terms of `Instr` are instructions of the FCB. -/

namespace Sys2Proof

/-- The four command codes (30_encoding.md R82). -/
def commandCodes : List Byte := [0x01, 0x02, 0x03, 0x04]

/-- An illegal command carries a code that is none of the four (30_encoding.md R83); every value of every other
field is one the encoding admits. -/
def Instr.wf : Instr → Bool
  | .crcInit => true
  | .crcUpdate => true
  | .decode => true
  | .encode => true
  | .illegal op => !commandCodes.contains op
  | .wr _ _ => true
  | .rd _ => true

end Sys2Proof
end

