-- ==== Sys2Proof/Decode.lean ====
section
/-! DEFINITION. From code words to instructions and back (30_encoding.md R80 to R83, R100). -/

namespace Sys2Proof

/-- What can carry an instruction: the byte written to CMD (format CMD8, R80), or the bus word of one host access
(format BUS20, R100). The two formats reach the FCB on different paths, so a word carries its format. -/
inductive CodeWord where
  | cmd8 (op : Byte)
  | bus20 (w : BusWord)
  deriving DecidableEq, Repr

/-- Why a code word is no instruction. -/
inductive DecodeError where
  /-- A `rd` word whose bits 7:0 are not 0 (R100: "bits 7:0 hold `V` (0 for `rd`)"). -/
  | readWordWithData (w : BusWord)
  deriving DecidableEq, Repr

/-- A command code's instruction (R82); every other code is an illegal command (R83), so no byte is rejected. -/
def decodeCmd (op : Byte) : Instr :=
  if op = 0x01 then .crcInit
  else if op = 0x02 then .crcUpdate
  else if op = 0x03 then .decode
  else if op = 0x04 then .encode
  else .illegal op

/-- A bus word's access (R100): bit 19 selects `wr`, bits 18:8 hold the offset, bits 7:0 the byte. -/
def decodeBus (w : BusWord) : Except DecodeError Instr :=
  if w.getLsbD 19 then .ok (.wr (w.extractLsb' 8 11) (w.extractLsb' 0 8))
  else if w.extractLsb' 0 8 = 0 then .ok (.rd (w.extractLsb' 8 11))
  else .error (.readWordWithData w)

/-- The decoder, total on code words. -/
def decode : CodeWord → Except DecodeError Instr
  | .cmd8 op => .ok (decodeCmd op)
  | .bus20 w => decodeBus w

/-- The bus word of a write, from R100's field places. -/
def busWrite (off : Offset) (v : Byte) : BusWord := 1#1 ++ off ++ v

/-- The bus word of a read, from R100's field places. -/
def busRead (off : Offset) : BusWord := 0#1 ++ off ++ 0#8

/-- The encoder: the code word of an instruction (R82, R83, R100). -/
def encode : Instr → CodeWord
  | .crcInit => .cmd8 0x01
  | .crcUpdate => .cmd8 0x02
  | .decode => .cmd8 0x03
  | .encode => .cmd8 0x04
  | .illegal op => .cmd8 op
  | .wr off v => .bus20 (busWrite off v)
  | .rd off => .bus20 (busRead off)

/-- The code word of a row of spec/opcode_table.json: up to 8 bits a CMD8 word, up to 24 a BUS20 word whose bits
above 19 are 0 (the table gives no format more than 20 bits; log 15). -/
def tableWord (nbits w : Nat) : Option CodeWord :=
  if nbits ≤ 8 then if w < 2 ^ 8 then some (.cmd8 (BitVec.ofNat 8 w)) else none
  else if nbits ≤ 24 then if w < 2 ^ 20 then some (.bus20 (BitVec.ofNat 20 w)) else none
  else none

/-- The instruction the decoder reads from a row's word. -/
def decodeTableWord (nbits w : Nat) : Option Instr :=
  match tableWord nbits w with
  | some c => (decode c).toOption
  | none => none

end Sys2Proof
end

