-- ==== Sys2Proof/Config.lean ====
section
/-! DEFINITION. The parameters of an FCB (00_scope.md R10) and the free values, which have no body. -/

namespace Sys2Proof

/-- The parameters an FCB is built with (00_scope.md R10). They stand in `State`, so every statement ranges
over them (log 4). -/
structure Params where
  /-- Bytes of IN_BUF (10_state.md R34). -/
  inCap : Nat
  /-- Bytes of OUT_BUF (10_state.md R35). -/
  outCap : Nat
  /-- FCB_BASE, the bus address of window offset 0x000; the spec leaves it OPEN (20_memory.md R50). -/
  base : Nat
  deriving DecidableEq, Repr

/-- The range 00_scope.md R10 gives the two capacities. -/
abbrev Params.ok (p : Params) : Prop :=
  (8 ≤ p.inCap ∧ p.inCap ≤ 512) ∧ (8 ≤ p.outCap ∧ p.outCap ≤ 512)

/-- The capacities 00_scope.md R10 assumes, 254 each. DESIGN CHOICE: FCB_BASE, which is OPEN, is 0 here (log 5). -/
def Params.assumed : Params := { inCap := 254, outCap := 254, base := 0 }

namespace Config

/-- FREE VALUE. The byte that stands at a window offset where the spec says "any value" (70_reset_and_hazards.md
R201, R212, R213), for each draw. No body: nothing is known of it (log 2). -/
opaque freeByte : (draw offset : Nat) → Byte

/-- FREE VALUE. Which of a tainted command's legal result codes is reported (70_reset_and_hazards.md R212), for
each draw (log 2). -/
opaque freeChoice : (draw : Nat) → Nat

/-- FREE VALUE. The host accesses between a command write and its completion, where `State.latencies` does not
fix them (00_scope.md R10, 10_state.md R26), for each draw (log 1). -/
opaque freeLatency : (draw : Nat) → Nat

end Config
end Sys2Proof
end

