-- ==== Sys2Proof/Machine/State.lean ====
section
/-! DEFINITION. Everything the FCB holds, the state after reset, and the reasons a step can stop. -/

namespace Sys2Proof.Machine

/-- The buffers' bytes that were written since the last reset, each at its window offset, offsets strictly rising
(20_memory.md R51). An offset that is not listed holds no written value (log 3). -/
abbrev Memory := List Host.Cell

/-- The command the FCB has accepted and not yet completed (10_state.md R39). -/
structure Pending where
  /-- The value written to CMD. -/
  op : Byte
  /-- Whether the host has written an input of this command since (70_reset_and_hazards.md R212). -/
  tainted : Bool
  deriving DecidableEq, Repr

/-- Who drives a bus cycle. One host drives the FCB; a second master is outside the spec (60_exceptions.md R180). -/
inductive Master where
  | host
  | other
  deriving DecidableEq, Repr

/-- One cycle on the bus the FCB sits on, before the FCB has looked at it (20_memory.md R50, R57). -/
structure BusCycle where
  master : Master
  /-- Width of the access in bits; the FCB's only one is 8 (20_memory.md R57). -/
  bits : Nat
  /-- Bus address of the first byte. -/
  addr : Nat
  /-- The byte a write of 8 bits writes, or `none` for a read. -/
  data : Option Byte
  deriving DecidableEq, Repr

/-- What the outside world does to the FCB, one item at a time (log 8). -/
inductive Input where
  /-- One access of the host program, as a bus word (30_encoding.md R100). -/
  | word (w : BusWord)
  /-- The pseudo-instruction WAIT: poll STATUS until BUSY reads 0 (30_encoding.md R101). -/
  | wait
  /-- One raw bus cycle (20_memory.md R50). -/
  | cycle (c : BusCycle)
  /-- The reset input is asserted (70_reset_and_hazards.md R200). -/
  | reset
  deriving DecidableEq, Repr

/-- The state. CMD has no stored value (10_state.md R22) and STATUS is read off `pending` (10_state.md R39). -/
structure State where
  /-- RESULT (10_state.md R24). -/
  result : Byte
  /-- CRC, the accumulator (10_state.md R25). -/
  crc : Byte
  /-- CRC_DIN (10_state.md R27). -/
  crcDin : Byte
  /-- RX_ACTION (10_state.md R28). -/
  rxAction : Byte
  /-- RX_PLEN (10_state.md R29). -/
  rxPlen : Byte
  /-- TX_ACTION (10_state.md R30). -/
  txAction : Byte
  /-- IN_LEN (10_state.md R31). -/
  inLen : Pair
  /-- TX_PLEN (10_state.md R32). -/
  txPlen : Pair
  /-- TX_FLEN (10_state.md R33). -/
  txFlen : Pair
  /-- IN_CAP and OUT_CAP, hardwired (10_state.md R34, R35), and FCB_BASE (20_memory.md R50). -/
  params : Params
  /-- PL_BUF, IN_BUF and OUT_BUF (10_state.md R36 to R38). -/
  mem : Memory
  /-- The pending command (10_state.md R39). -/
  pending : Option Pending
  /-- MODEL'S OWN. The draw that fills the buffer bytes nothing has written since reset (log 3). -/
  epoch : Nat
  /-- MODEL'S OWN. The number of the next free value (log 2). -/
  draws : Nat
  /-- MODEL'S OWN. Host accesses still to come before the pending command completes (log 1). -/
  left : Nat
  /-- MODEL'S OWN. Latencies fixed in advance for the next commands; free where empty (log 1). -/
  latencies : List Nat
  /-- MODEL'S OWN. The byte the last host read returned (log 7). -/
  answer : Option Byte
  /-- MODEL'S OWN. What the outside world does next (log 8). -/
  inputs : List Input
  deriving DecidableEq, Repr

/-- The FCB never traps and never halts (60_exceptions.md R170): there is no fault, so no step raises one. -/
inductive Fault where
  deriving DecidableEq, Repr

/-- Why a step has no next state. Each is safe: nothing can be proved of what the hardware would do. -/
inductive Refusal where
  /-- An instruction without a meaning yet. No instruction raises it: all seven have theirs. Safe. -/
  | notModelled (mnemonic : String)
  /-- Raised by fetching a bus cycle wider or narrower than 8 bits (20_memory.md R57). Safe. -/
  | accessWidth (bits : Nat)
  /-- Raised by fetching a bus cycle of a master other than the host (60_exceptions.md R180). Safe. -/
  | secondMaster
  /-- Raised by fetching a bus word that encodes no access (30_encoding.md R100, log 9). Safe. -/
  | noSuchBusWord (w : BusWord)
  deriving DecidableEq, Repr

/-- The machine right after reset (10_state.md R42). Buffers list nothing: every byte is unspecified. The spec
gives every register's value; the model's own fields, and FCB_BASE, are DESIGN CHOICES (log 1, 2, 3, 5, 7, 8). -/
def State.reset : State where
  result := 0x00
  crc := 0x00
  crcDin := 0x00
  rxAction := 0x00
  rxPlen := 0x00
  txAction := 0x00
  inLen := ⟨0x00, 0x00⟩
  txPlen := ⟨0x00, 0x00⟩
  txFlen := ⟨0x00, 0x00⟩
  params := Params.assumed
  mem := []
  pending := none
  epoch := 0
  draws := 1
  left := 0
  latencies := []
  answer := none
  inputs := []

end Sys2Proof.Machine
end

