-- ==== Sys2Proof/Machine/Flags.lean ====
section
/-! DEFINITION. The FCB's only flags: BUSY and the result code (10_state.md R41). -/

namespace Sys2Proof.Machine

/-- The result codes by name (30_encoding.md R85). -/
inductive ResultCode where
  | none
  | ok
  | len
  | format
  | checksum
  | illegalCmd
  deriving DecidableEq, Repr

/-- The value RESULT holds for a code (30_encoding.md R85). -/
def ResultCode.byte : ResultCode → Byte
  | .none => 0x00
  | .ok => 0x01
  | .len => 0x02
  | .format => 0x03
  | .checksum => 0x04
  | .illegalCmd => 0x05

/-- BUSY is 1 exactly when a command is pending (10_state.md R39). -/
def State.busy (s : State) : Bool := s.pending.isSome

/-- The STATUS byte: bit 0 is BUSY, bits 7:1 read 0 (10_state.md R23). -/
def State.statusByte (s : State) : Byte := if s.busy then 0x01 else 0x00

/-- Whether the pending command is tainted (70_reset_and_hazards.md R212). -/
def State.tainted (s : State) : Bool :=
  match s.pending with
  | some p => p.tainted
  | none => false

/-- The result codes a command may complete with (60_exceptions.md R171, 70_reset_and_hazards.md R212); a host
access completes with none. -/
def legalCodes : Instr → List ResultCode
  | .crcInit => [.ok]
  | .crcUpdate => [.ok]
  | .decode => [.ok, .len, .format, .checksum]
  | .encode => [.ok, .len]
  | .illegal _ => [.illegalCmd]
  | .wr _ _ => []
  | .rd _ => []

end Sys2Proof.Machine
end

