-- ==== Sys2Proof/Machine/Ops.lean ====
section
/-! DEFINITION. The operations over memory and registers that the meanings share: buffer bytes, free values,
starting, tainting and completing a command, and reset. The FCB takes no exception: reporting an error IS
`State.complete` with an error code (60_exceptions.md R170, R176). -/

namespace Sys2Proof.Machine

/-- The written value at an offset, or `none` where nothing was written since reset. -/
def Memory.lookup : Memory → Nat → Option Byte
  | [], _ => none
  | (b, w) :: m, a => if b = a then some w else Memory.lookup m a

/-- Write one byte, keeping the offsets strictly rising. -/
def Memory.write : Memory → Nat → Byte → Memory
  | [], a, v => [(a, v)]
  | (b, w) :: m, a, v =>
    if a < b then (a, v) :: (b, w) :: m
    else if a = b then (a, v) :: m
    else (b, w) :: Memory.write m a v

/-- Write consecutive bytes from an offset on. -/
def Memory.writeList : Memory → Nat → List Byte → Memory
  | m, _, [] => m
  | m, a, v :: vs => Memory.writeList (Memory.write m a v) (a + 1) vs

/-- The canonical form: offsets strictly rising. An unlisted offset holds no written value, so no entry can equal
what an unlisted one holds (log 3). -/
abbrev Memory.wf (m : Memory) : Prop := m.Pairwise (fun x y => x.1 < y.1)

/-- The byte at a window offset of a buffer: the value written since reset, else the unspecified byte that reset
left there, one free value per byte (70_reset_and_hazards.md R201, log 3). -/
def State.byteAt (s : State) (a : Nat) : Byte := (Memory.lookup s.mem a).getD (Config.freeByte s.epoch a)

/-- The `k` bytes from window offset `a` on. -/
def State.bytesAt (s : State) (a k : Nat) : List Byte := (List.range' a k).map s.byteAt

/-- Store one byte at a window offset of a buffer. -/
def State.store (s : State) (a : Nat) (v : Byte) : State := { s with mem := Memory.write s.mem a v }

/-- Store consecutive bytes at window offsets of a buffer. -/
def State.storeBytes (s : State) (a : Nat) (vs : List Byte) : State :=
  { s with mem := Memory.writeList s.mem a vs }

/-- The free byte for window offset `a` at the next draw (log 2). -/
def State.freeAt (s : State) (a : Nat) : Byte := Config.freeByte s.draws a

/-- Pass on to the next draw (log 2). -/
def State.drawn (s : State) : State := { s with draws := s.draws + 1 }

/-- `complete(code)`: write RESULT, clear BUSY, and forget the pending command (10_state.md R26). -/
def State.complete (s : State) (code : ResultCode) : State := { s with result := code.byte, pending := none }

/-- One of the listed codes, the `k`-th counted round. -/
def pickCode (codes : List ResultCode) (k : Nat) : ResultCode := (codes[k % codes.length]?).getD .ok

/-- The completion of a tainted command: any legal result code, drawn freely (70_reset_and_hazards.md R212). -/
def State.completeFreely (s : State) (codes : List ResultCode) : State :=
  (s.complete (pickCode codes (Config.freeChoice s.draws))).drawn

/-- The latency of the next command: as fixed in advance, else free (00_scope.md R10, log 1). -/
def State.nextLatency (s : State) : Nat :=
  match s.latencies with
  | k :: _ => k
  | [] => Config.freeLatency s.draws

/-- Accept the command `v`: BUSY becomes 1 and the command is recorded, untainted (70_reset_and_hazards.md R210). -/
def State.start (s : State) (v : Byte) : State :=
  { s with
    pending := some { op := v, tainted := false }
    left := s.nextLatency
    latencies := s.latencies.tail
    draws := if s.latencies.isEmpty then s.draws + 1 else s.draws }

/-- Record that the host has written an input of the pending command (70_reset_and_hazards.md R212). -/
def State.taint (s : State) : State :=
  { s with pending := s.pending.map fun p => { p with tainted := true } }

/-- The reset input: every register at its reset value, no command pending, every buffer byte unspecified anew
(70_reset_and_hazards.md R201, R202). The parameters are hardwired; the outside world goes on (log 12). -/
def State.applyReset (s : State) : State :=
  { State.reset with
    params := s.params
    epoch := s.draws
    draws := s.draws + 1
    latencies := s.latencies
    answer := s.answer
    inputs := s.inputs }

end Sys2Proof.Machine
end

