-- ==== Sys2Proof/Machine/Operands.lean ====
section
/-! DEFINITION. What an offset names (20_memory.md R51, R52), and the operands each command reads and writes
(30_encoding.md R84). -/

namespace Sys2Proof.Machine

/-- The value of a `_LO`/`_HI` pair: `LO + 256 × HI` (20_memory.md R56). -/
def pairValue (p : Pair) : Nat := p.lo.toNat + 256 * p.hi.toNat

/-- The pair that holds a number below 65536. -/
def pairOf (n : Nat) : Pair := { lo := BitVec.ofNat 8 n, hi := BitVec.ofNat 8 (n / 256) }

/-- The registers, one for each byte of the register map (20_memory.md R52). -/
inductive Reg where
  | cmd | status | result | crc | crcDin | rxAction | rxPlen | txAction
  | inLenLo | inLenHi | txPlenLo | txPlenHi | txFlenLo | txFlenHi
  | inCapLo | inCapHi | outCapLo | outCapHi
  deriving DecidableEq, Repr

/-- Access rights: `W` write-only, `R` read-only, `RW` both (10_state.md section 2). -/
inductive Access where
  | w | r | rw
  deriving DecidableEq, Repr

/-- One row of the register map. -/
structure RegRow where
  offset : Nat
  reg : Reg
  access : Access
  deriving DecidableEq, Repr

/-- The register map (20_memory.md R52). -/
def regMap : List RegRow :=
  [ ⟨0x000, .cmd, .w⟩,
    ⟨0x001, .status, .r⟩,
    ⟨0x002, .result, .r⟩,
    ⟨0x003, .crc, .r⟩,
    ⟨0x004, .crcDin, .rw⟩,
    ⟨0x005, .rxAction, .r⟩,
    ⟨0x006, .rxPlen, .r⟩,
    ⟨0x007, .txAction, .rw⟩,
    ⟨0x008, .inLenLo, .rw⟩,
    ⟨0x009, .inLenHi, .rw⟩,
    ⟨0x00A, .txPlenLo, .rw⟩,
    ⟨0x00B, .txPlenHi, .rw⟩,
    ⟨0x00C, .txFlenLo, .r⟩,
    ⟨0x00D, .txFlenHi, .r⟩,
    ⟨0x00E, .inCapLo, .r⟩,
    ⟨0x00F, .inCapHi, .r⟩,
    ⟨0x010, .outCapLo, .r⟩,
    ⟨0x011, .outCapHi, .r⟩ ]

/-- The register at an offset, if the map has one there. -/
def regAt (off : Nat) : Option Reg := (regMap.find? fun row => row.offset == off).map (·.reg)

/-- A register's access rights, from the map. -/
def regAccess (r : Reg) : Access := ((regMap.find? fun row => row.reg == r).map (·.access)).getD .r

/-- A register's offset, from the map. -/
def regOffset (r : Reg) : Nat := ((regMap.find? fun row => row.reg == r).map (·.offset)).getD 0

/-- Window offset of `PL[0]` (20_memory.md R51). -/
def plBase : Nat := 0x100

/-- Window offset of `IN[0]` (20_memory.md R51). -/
def inBase : Nat := 0x200

/-- Window offset of `OUT[0]` (20_memory.md R51). -/
def outBase : Nat := 0x400

/-- PL_CAP, the bytes of PL_BUF (00_scope.md R10, 10_state.md R38). -/
def plCap : Nat := 255

/-- What a window offset names (20_memory.md R51). -/
inductive Target where
  | reg (r : Reg)
  | plBuf (i : Nat)
  | inBuf (i : Nat)
  | outBuf (i : Nat)
  | reserved
  deriving DecidableEq, Repr

/-- The regions of the window (20_memory.md R51, R53): bytes beyond a capacity are reserved. -/
def target (p : Params) (off : Nat) : Target :=
  match regAt off with
  | some r => .reg r
  | none =>
    if plBase ≤ off ∧ off < plBase + plCap then .plBuf (off - plBase)
    else if inBase ≤ off ∧ off < inBase + p.inCap then .inBuf (off - inBase)
    else if outBase ≤ off ∧ off < outBase + p.outCap then .outBuf (off - outBase)
    else .reserved

/-- What an offset of the window names in a state. -/
def State.targetOf (s : State) (off : Offset) : Target := target s.params off.toNat

/-- `IN[i]` (00_scope.md R13). -/
def State.inByte (s : State) (i : Nat) : Byte := s.byteAt (inBase + i)

/-- `OUT[i]` (00_scope.md R13). -/
def State.outByte (s : State) (i : Nat) : Byte := s.byteAt (outBase + i)

/-- `PL[i]` (00_scope.md R13). -/
def State.plByte (s : State) (i : Nat) : Byte := s.byteAt (plBase + i)

/-- The `k` bytes of IN_BUF from index `i` on. -/
def State.inBytes (s : State) (i k : Nat) : List Byte := s.bytesAt (inBase + i) k

/-- The `k` bytes of PL_BUF from index `i` on. -/
def State.plBytes (s : State) (i k : Nat) : List Byte := s.bytesAt (plBase + i) k

/-- The `k` bytes of OUT_BUF from index `i` on. -/
def State.outBytes (s : State) (i k : Nat) : List Byte := s.bytesAt (outBase + i) k

/-- The effective inbound length `L = min(IN_LEN, IN_CAP)` (10_state.md R31, 41_framing.md R131). -/
def State.inLength (s : State) : Nat := min (pairValue s.inLen) s.params.inCap

/-- The declared payload length of the frame in IN_BUF, `n = IN[5]` (41_framing.md R131). -/
def State.inPayloadLength (s : State) : Nat := (s.inByte 5).toNat

/-- The inputs a command takes from what the host can write (30_encoding.md R84, 70_reset_and_hazards.md R212).
CRC is an input of CRC_UPDATE too, but the host cannot write it. -/
def isInput : Instr → Target → Bool
  | .crcInit, _ => false
  | .crcUpdate, t => t == .reg .crcDin
  | .decode, t =>
    match t with
    | .reg r => r == .inLenLo || r == .inLenHi
    | .inBuf _ => true
    | _ => false
  | .encode, t =>
    match t with
    | .reg r => r == .txAction || r == .txPlenLo || r == .txPlenHi
    | .plBuf _ => true
    | _ => false
  | .illegal _, _ => false
  | .wr _ _, _ => false
  | .rd _, _ => false

/-- The outputs of a command apart from STATUS (30_encoding.md R84, 70_reset_and_hazards.md R213); an illegal
command's only one is RESULT (log 11). -/
def isOutput : Instr → Target → Bool
  | .crcInit, t => t == .reg .result || t == .reg .crc
  | .crcUpdate, t => t == .reg .result || t == .reg .crc
  | .decode, t => t == .reg .result || t == .reg .crc || t == .reg .rxAction || t == .reg .rxPlen
  | .encode, t =>
    match t with
    | .reg r => r == .result || r == .crc || r == .txFlenLo || r == .txFlenHi
    | .outBuf _ => true
    | _ => false
  | .illegal _, t => t == .reg .result
  | .wr _ _, _ => false
  | .rd _, _ => false

/-- Whether a host write of `t` is the input hazard of the pending command (70_reset_and_hazards.md R212). -/
def State.inputHazard (s : State) (t : Target) : Bool :=
  match s.pending with
  | some p => isInput (decodeCmd p.op) t
  | none => false

/-- Whether a host read of `t` is the output hazard of the pending command (70_reset_and_hazards.md R213). -/
def State.outputHazard (s : State) (t : Target) : Bool :=
  match s.pending with
  | some p => isOutput (decodeCmd p.op) t
  | none => false

/-- A register's current byte (10_state.md R22 to R35); CMD reads 0x00. -/
def State.readReg (s : State) : Reg → Byte
  | .cmd => 0x00
  | .status => s.statusByte
  | .result => s.result
  | .crc => s.crc
  | .crcDin => s.crcDin
  | .rxAction => s.rxAction
  | .rxPlen => s.rxPlen
  | .txAction => s.txAction
  | .inLenLo => s.inLen.lo
  | .inLenHi => s.inLen.hi
  | .txPlenLo => s.txPlen.lo
  | .txPlenHi => s.txPlen.hi
  | .txFlenLo => s.txFlen.lo
  | .txFlenHi => s.txFlen.hi
  | .inCapLo => (pairOf s.params.inCap).lo
  | .inCapHi => (pairOf s.params.inCap).hi
  | .outCapLo => (pairOf s.params.outCap).lo
  | .outCapHi => (pairOf s.params.outCap).hi

/-- Store a byte in a register with access `RW`; a write of an `R` register is ignored (10_state.md R22 to R35).
CMD is no storage: `State.hostWrite` starts the command. -/
def State.writeReg (s : State) (v : Byte) : Reg → State
  | .crcDin => { s with crcDin := v }
  | .txAction => { s with txAction := v }
  | .inLenLo => { s with inLen := { s.inLen with lo := v } }
  | .inLenHi => { s with inLen := { s.inLen with hi := v } }
  | .txPlenLo => { s with txPlen := { s.txPlen with lo := v } }
  | .txPlenHi => { s with txPlen := { s.txPlen with hi := v } }
  | .cmd => s
  | .status => s
  | .result => s
  | .crc => s
  | .rxAction => s
  | .rxPlen => s
  | .txFlenLo => s
  | .txFlenHi => s
  | .inCapLo => s
  | .inCapHi => s
  | .outCapLo => s
  | .outCapHi => s

/-- The byte a target holds (20_memory.md R53); a reserved offset reads 0x00 (R54). -/
def State.readTarget (s : State) : Target → Byte
  | .reg r => s.readReg r
  | .plBuf i => s.plByte i
  | .inBuf i => s.inByte i
  | .outBuf i => s.outByte i
  | .reserved => 0x00

/-- Store a byte in a target the host may write; OUT_BUF and reserved offsets ignore it (20_memory.md R53, R54). -/
def State.writeTarget (s : State) (v : Byte) : Target → State
  | .reg r => s.writeReg v r
  | .plBuf i => s.store (plBase + i) v
  | .inBuf i => s.store (inBase + i) v
  | .outBuf _ => s
  | .reserved => s

end Sys2Proof.Machine
end

