-- ==== Sys2Proof/Machine/Crc.lean ====
section
/-! DEFINITION. The CRC-8 function and the two CRC commands (40_crc.md). -/

namespace Sys2Proof.Machine

/-- One turn of the loop of 40_crc.md R111: shift left, and reduce by the polynomial 0x07 if bit 7 was 1. -/
def crcShift (t : Byte) : Byte := if t.getLsbD 7 then (t <<< 1) ^^^ 0x07 else t <<< 1

/-- `repeat k times` of 40_crc.md R111. -/
def crcShifts : Nat → Byte → Byte
  | 0, t => t
  | k + 1, t => crcShifts k (crcShift t)

/-- `crc8_step(c, b)` (40_crc.md R111). -/
def crc8Step (c b : Byte) : Byte := crcShifts 8 (c ^^^ b)

/-- `crc8(seq)` (40_crc.md R110). -/
def crc8 (seq : List Byte) : Byte := seq.foldl crc8Step 0x00

/-- CRC_INIT's completion step (40_crc.md R116). It has no inputs, so no taint changes it. -/
def execCrcInit (s : State) : Host.Outcome State Fault Refusal :=
  .next ({ s with crc := 0x00 }.complete .ok)

/-- CRC_UPDATE on untouched inputs (40_crc.md R117). -/
def State.crcUpdated (s : State) : State := { s with crc := crc8Step s.crc s.crcDin }.complete .ok

/-- A tainted CRC_UPDATE: CRC is any value (70_reset_and_hazards.md R212). -/
def State.crcUpdatedTainted (s : State) : State :=
  { s with crc := s.freeAt (regOffset .crc) }.completeFreely (legalCodes .crcUpdate)

/-- CRC_UPDATE's completion step (40_crc.md R117, 70_reset_and_hazards.md R212). -/
def execCrcUpdate (s : State) : Host.Outcome State Fault Refusal :=
  .next (if s.tainted then s.crcUpdatedTainted else s.crcUpdated)

end Sys2Proof.Machine
end

