-- ==== Sys2Proof/Machine/Framing.lean ====
section
/-! DEFINITION. The frame format (30_encoding.md section 2), the deframer DECODE and the framer ENCODE
(41_framing.md). -/

namespace Sys2Proof.Machine

/-- The start sentinel (30_encoding.md R92). -/
def startSentinel : Byte := 0xAA

/-- The end sentinel (30_encoding.md R92). -/
def endSentinel : Byte := 0x55

/-- The bytes a frame has beside its payload (30_encoding.md R90). -/
def frameOverhead : Nat := 8

/-- The largest payload length the format has (30_encoding.md R96). -/
def maxPayload : Nat := 255

/-- The bytes DECODE computes the checksum over, `IN[1 .. 5 + n]` (30_encoding.md R91). -/
def State.inCovered (s : State) : List Byte := s.inBytes 1 (5 + s.inPayloadLength)

/-- DECODE on untouched inputs, check by check (41_framing.md R131). -/
def State.deframed (s : State) : State :=
  let n := s.inPayloadLength
  if s.inLength < frameOverhead then s.complete .len
  else if s.inLength < frameOverhead + n then s.complete .len
  else if s.inByte 0 ≠ startSentinel then s.complete .format
  else if s.inByte (7 + n) ≠ endSentinel then s.complete .format
  else
    let c := crc8 s.inCovered
    if c ≠ s.inByte (6 + n) then { s with crc := c }.complete .checksum
    else { s with crc := c, rxAction := s.inByte 1, rxPlen := s.inByte 5 }.complete .ok

/-- A tainted DECODE: CRC, RX_ACTION and RX_PLEN are any values (70_reset_and_hazards.md R212). -/
def State.deframedTainted (s : State) : State :=
  { s with
    crc := s.freeAt (regOffset .crc)
    rxAction := s.freeAt (regOffset .rxAction)
    rxPlen := s.freeAt (regOffset .rxPlen) }.completeFreely (legalCodes .decode)

/-- DECODE's completion step (41_framing.md R131, 70_reset_and_hazards.md R212). -/
def execDecode (s : State) : Host.Outcome State Fault Refusal :=
  .next (if s.tainted then s.deframedTainted else s.deframed)

/-- The bytes 1 to 5 + n of a frame: action, three reserved zeros, length, payload (30_encoding.md R90). -/
def frameBody (action : Byte) (payload : List Byte) : List Byte :=
  [action, 0x00, 0x00, 0x00, BitVec.ofNat 8 payload.length] ++ payload

/-- The frame of an action and a payload (30_encoding.md R90, R91). -/
def frameOf (action : Byte) (payload : List Byte) : List Byte :=
  startSentinel :: (frameBody action payload ++ [crc8 (frameBody action payload), endSentinel])

/-- The payload ENCODE frames, `PL[0 .. n − 1]` with `n = TX_PLEN` (41_framing.md R151). -/
def State.outPayload (s : State) : List Byte := s.plBytes 0 (pairValue s.txPlen)

/-- What ENCODE leaves in all `OUT_CAP` bytes of OUT_BUF: the frame, then zeros (41_framing.md R151, R153). -/
def State.outImage (s : State) : List Byte :=
  frameOf s.txAction s.outPayload ++
    List.replicate (s.params.outCap - (frameOverhead + pairValue s.txPlen)) 0x00

/-- ENCODE on untouched inputs (41_framing.md R151). -/
def State.enframed (s : State) : State :=
  let n := pairValue s.txPlen
  if maxPayload < n ∨ s.params.outCap < frameOverhead + n then s.complete .len
  else
    { s.storeBytes outBase s.outImage with
      crc := crc8 (frameBody s.txAction s.outPayload)
      txFlen := pairOf (frameOverhead + n) }.complete .ok

/-- A tainted ENCODE: CRC, TX_FLEN and every byte of OUT_BUF are any values (70_reset_and_hazards.md R212). -/
def State.enframedTainted (s : State) : State :=
  { s.storeBytes outBase ((List.range' outBase s.params.outCap).map s.freeAt) with
    crc := s.freeAt (regOffset .crc)
    txFlen := ⟨s.freeAt (regOffset .txFlenLo), s.freeAt (regOffset .txFlenHi)⟩ }.completeFreely
      (legalCodes .encode)

/-- ENCODE's completion step (41_framing.md R151, 70_reset_and_hazards.md R212). -/
def execEncode (s : State) : Host.Outcome State Fault Refusal :=
  .next (if s.tainted then s.enframedTainted else s.enframed)

end Sys2Proof.Machine
end

