-- ==== Sys2Proof/Machine/HostAccess.lean ====
section
/-! DEFINITION. The two host accesses, HostRead and HostWrite (20_memory.md R53), with the hazards of
70_reset_and_hazards.md section 2. -/

namespace Sys2Proof.Machine

/-- HostRead(off): the byte at the offset, or any value where it is an output of the pending command (R213). The
byte goes to the host; nothing else changes (20_memory.md R59). -/
def State.hostRead (s : State) (off : Offset) : State :=
  if s.outputHazard (s.targetOf off) then { s with answer := some (s.freeAt off.toNat) }.drawn
  else { s with answer := some (s.readTarget (s.targetOf off)) }

/-- A write of `v` to CMD: start the command, or nothing while BUSY (R210, R211). -/
def State.writeCmd (s : State) (v : Byte) : State := if s.busy then s else s.start v

/-- HostWrite(off, v): a write that hits an input of the pending command is stored as usual and taints it (R212). -/
def State.hostWrite (s : State) (off : Offset) (v : Byte) : State :=
  match s.targetOf off with
  | .reg .cmd => s.writeCmd v
  | t => if s.inputHazard t then (s.writeTarget v t).taint else s.writeTarget v t

/-- `wr OFF, V` (20_memory.md R53). -/
def execWr (off : Offset) (v : Byte) (s : State) : Host.Outcome State Fault Refusal := .next (s.hostWrite off v)

/-- `rd OFF` (20_memory.md R53). -/
def execRd (off : Offset) (s : State) : Host.Outcome State Fault Refusal := .next (s.hostRead off)

end Sys2Proof.Machine
end

