-- ==== Sys2Proof/Machine/Illegal.lean ====
section
/-! DEFINITION. Illegal command codes (30_encoding.md R83, 60_exceptions.md R172). -/

namespace Sys2Proof.Machine

/-- An illegal command's completion step: complete(ILLEGAL_CMD), nothing else, whatever the code `_op` was. It has
no inputs, so no taint changes it. -/
def execIllegal (_op : Byte) (s : State) : Host.Outcome State Fault Refusal := .next (s.complete .illegalCmd)

end Sys2Proof.Machine
end

