-- ==== Sys2Proof/Machine/Dispatch.lean ====
section
/-! DEFINITION. One arm per instruction, each a direct call of its meaning. -/

namespace Sys2Proof.Machine

/-- The effect of one instruction: a command's completion step, or one host access (log 6). -/
def exec (i : Instr) (s : State) : Host.Outcome State Fault Refusal :=
  match i with
  | .crcInit => Sys2Proof.Machine.execCrcInit s
  | .crcUpdate => Sys2Proof.Machine.execCrcUpdate s
  | .decode => Sys2Proof.Machine.execDecode s
  | .encode => Sys2Proof.Machine.execEncode s
  | .illegal op => Sys2Proof.Machine.execIllegal op s
  | .wr off v => Sys2Proof.Machine.execWr off v s
  | .rd off => Sys2Proof.Machine.execRd off s

end Sys2Proof.Machine
end

