-- ==== Sys2Proof/Machine/Fetch.lean ====
section
/-! DEFINITION. What the machine does next: the pending command's completion step, or the next input of the
outside world (10_state.md R20, R26; 20_memory.md R57, R61; 30_encoding.md R101). -/

namespace Sys2Proof.Machine

/-- The bytes of the window (20_memory.md R50). -/
def windowSize : Nat := 0x800

/-- The bus address of a window offset (20_memory.md R50). -/
def busAddress (p : Params) (off : Offset) : Nat := p.base + off.toNat

/-- The window offset a bus address names, if it lies in the window (20_memory.md R50). -/
def offsetAt (p : Params) (addr : Nat) : Option Offset :=
  if p.base ≤ addr ∧ addr < p.base + windowSize then some (BitVec.ofNat 11 (addr - p.base)) else none

/-- The bytes a bus cycle reaches from its address on: a cycle narrower than a byte still addresses one (log 14). -/
def BusCycle.span (c : BusCycle) : Nat := max 1 ((c.bits + 7) / 8)

/-- Whether a bus cycle touches a byte of the window; one that does not is none of the FCB's (log 14). -/
def touchesWindow (p : Params) (c : BusCycle) : Bool :=
  decide (c.addr < p.base + windowSize ∧ p.base < c.addr + c.span)

/-- The access a one-byte cycle at an offset makes (00_scope.md R13). -/
def cycleAccess (off : Offset) : Option Byte → Instr
  | some v => .wr off v
  | none => .rd off

/-- What comes next. -/
inductive Fetched where
  /-- An instruction, and the state it runs in. -/
  | run (i : Instr) (s : State)
  /-- No instruction: the state that stands. -/
  | settle (s : State)
  /-- An input with no meaning. -/
  | refuse (r : Refusal)
  deriving DecidableEq, Repr

/-- The inputs that follow. -/
def State.withInputs (s : State) (rest : List Input) : State := { s with inputs := rest }

/-- The state a host access runs in: the inputs that follow it, and one access less to wait for (log 1). -/
def State.atAccess (s : State) (rest : List Input) : State := { s with inputs := rest, left := s.left - 1 }

/-- The host's word: decoded, it runs; a word that encodes no access is refused (log 9). -/
def fetchWord (s : State) (w : BusWord) (rest : List Input) : Fetched :=
  match decode (.bus20 w) with
  | .ok i => .run i (s.atAccess rest)
  | .error _ => .refuse (.noSuchBusWord w)

/-- WAIT: one `rd STATUS`, and again while it reads BUSY (30_encoding.md R101). -/
def fetchWait (s : State) (rest : List Input) : Fetched :=
  .run (.rd (BitVec.ofNat 11 (regOffset .status))) (s.atAccess (if s.busy then s.inputs else rest))

/-- A raw bus cycle: refused from a second master (60_exceptions.md R180) and wider or narrower than 8
bits (20_memory.md R57), without effect outside the window. -/
def fetchCycle (s : State) (c : BusCycle) (rest : List Input) : Fetched :=
  if touchesWindow s.params c then
    if c.master ≠ .host then .refuse .secondMaster
    else if c.bits ≠ 8 then .refuse (.accessWidth c.bits)
    else
      match offsetAt s.params c.addr with
      | some off => .run (cycleAccess off c.data) (s.atAccess rest)
      | none => .settle (s.withInputs rest)
  else .settle (s.withInputs rest)

/-- The next input of the outside world; with none, the FCB stands still. -/
def fetchInput (s : State) : Fetched :=
  match s.inputs with
  | [] => .settle s
  | .word w :: rest => fetchWord s w rest
  | .wait :: rest => fetchWait s rest
  | .cycle c :: rest => fetchCycle s c rest
  | .reset :: rest => .settle (s.withInputs rest).applyReset

/-- Whether the completion step comes before the next input: no host access is left to wait for, or none will come
(70_reset_and_hazards.md R216, log 10). -/
def State.completionDue (s : State) : Bool := s.left == 0 || s.inputs.isEmpty

/-- The pending command when its completion is due (10_state.md R26), else the next input. -/
def fetch (s : State) : Fetched :=
  match s.pending with
  | some p => if s.completionDue then .run (decodeCmd p.op) s else fetchInput s
  | none => fetchInput s

end Sys2Proof.Machine
end

