-- ==== Sys2Proof/Machine/Step.lean ====
section
/-! DEFINITION. One step: fetch what comes next, and run it. -/

namespace Sys2Proof.Machine

/-- One host access, one completion step, or one input that is neither (20_memory.md R60, R61). -/
def step (s : State) : Host.Outcome State Fault Refusal :=
  match fetch s with
  | .run i t => exec i t
  | .settle t => .next t
  | .refuse r => .refused r

/-- The state in which the next step runs a row's word. A CMD8 word is a command pending and due; a BUS20 word is
the host's next access, one more access to wait for standing in `left`, which the fetch takes off again (log 8). -/
def State.withFetchWord (s : State) (nbits w : Nat) : State :=
  if nbits ≤ 8 then { s with pending := some { op := BitVec.ofNat 8 w, tainted := false }, left := 0 }
  else { s with inputs := .word (BitVec.ofNat 20 w) :: s.inputs, left := s.left + 1 }

end Sys2Proof.Machine
end

