-- ==== Sys2Proof/Machine/HostProgram.lean ====
section
/-! DEFINITION. Host programs: the pseudo-instructions and their expansions (30_encoding.md R101). -/

namespace Sys2Proof.Machine

/-- The pseudo-instructions (30_encoding.md R101). -/
inductive Pseudo where
  | wait
  | crcInit
  | crcUpd (v : Byte)
  | decode
  | encode
  | loadIn (bytes : List Byte)
  | loadPl (action : Byte) (payload : List Byte)
  deriving DecidableEq, Repr

/-- `wr NAME, V` (30_encoding.md R100). -/
def wrReg (r : Reg) (v : Byte) : Input := .word (busWrite (BitVec.ofNat 11 (regOffset r)) v)

/-- `rd NAME` (30_encoding.md R100). -/
def rdReg (r : Reg) : Input := .word (busRead (BitVec.ofNat 11 (regOffset r)))

/-- Writes of consecutive bytes from a window offset on. DESIGN CHOICE: R101 bounds neither list, and an offset past
0x7FF, which no bus word can hold, is taken modulo 0x800 (log 16). -/
def wrBytes : (off : Nat) → List Byte → List Input
  | _, [] => []
  | off, v :: vs => .word (busWrite (BitVec.ofNat 11 off) v) :: wrBytes (off + 1) vs

/-- The expansions (30_encoding.md R101). DESIGN CHOICE: of a length of 65536 or more, `k >> 8` keeps its low 8 bits
(log 16). -/
def Pseudo.expand : Pseudo → List Input
  | .wait => [.wait]
  | .crcInit => [wrReg .cmd 0x01, .wait]
  | .crcUpd v => [wrReg .crcDin v, wrReg .cmd 0x02, .wait]
  | .decode => [wrReg .cmd 0x03, .wait]
  | .encode => [wrReg .cmd 0x04, .wait]
  | .loadIn bytes =>
    wrBytes inBase bytes ++
      [wrReg .inLenLo (pairOf bytes.length).lo, wrReg .inLenHi (pairOf bytes.length).hi]
  | .loadPl action payload =>
    wrReg .txAction action :: (wrBytes plBase payload ++
      [wrReg .txPlenLo (pairOf payload.length).lo, wrReg .txPlenHi (pairOf payload.length).hi])

end Sys2Proof.Machine
end

