-- ==== Sys2Proof/Safety.lean ====
section
/-! DEFINITION. What a well-formed state and a safe run are, in the terms the statements use. -/

namespace Sys2Proof.Machine

/-- The window offsets that are bytes of a buffer (20_memory.md R51). -/
abbrev bufferOffset (p : Params) (a : Nat) : Prop :=
  (plBase ≤ a ∧ a < plBase + plCap) ∨ (inBase ≤ a ∧ a < inBase + p.inCap) ∨
    (outBase ≤ a ∧ a < outBase + p.outCap)

/-- The commands that have inputs a host write can hit (30_encoding.md R84): CRC_UPDATE, DECODE and ENCODE. -/
abbrev takesInputs (op : Byte) : Prop := op = 0x02 ∨ op = 0x03 ∨ op = 0x04

/-- What holds of every state the FCB can be in. -/
structure State.Inv (s : State) : Prop where
  /-- The capacities are in the range of 00_scope.md R10. -/
  params_ok : s.params.ok
  /-- Memory is in its canonical form. -/
  mem_wf : Memory.wf s.mem
  /-- Only buffer bytes are stored (20_memory.md R51). -/
  mem_in_buffers : ∀ c ∈ s.mem, bufferOffset s.params c.1
  /-- RESULT holds 0x00 to 0x05 and nothing else (10_state.md R24). -/
  result_legal : s.result.toNat ≤ 5
  /-- Only a command with inputs can be tainted (40_crc.md R116, 60_exceptions.md R172). -/
  taint_has_input : ∀ p, s.pending = some p → p.tainted = true → takesInputs p.op
  /-- No later free value repeats the ones that filled the buffers (log 2). -/
  epoch_past : s.epoch < s.draws

/-- TX_FLEN's legal values: 0, or 8 to min(263, OUT_CAP) (10_state.md R33). -/
abbrev State.flenLegal (s : State) : Prop :=
  pairValue s.txFlen = 0 ∨ (8 ≤ pairValue s.txFlen ∧ pairValue s.txFlen ≤ min 263 s.params.outCap)

/-- The next step takes the next input: no command is pending, or the pending one is not yet due. -/
abbrev State.takesInput (s : State) : Prop := s.pending = none ∨ 0 < s.left

end Sys2Proof.Machine
end

