-- ==== Sys2Proof/Certificates/Slice0/Obligations.lean ====
section
/-! DEFINITION. The statements for the provers, from the numbered rules of spec/. -/

open Sys2Proof Sys2Proof.Machine

/-! ## Reset -/

/-- 10_state.md R42: the value of every piece of state after reset; buffer bytes are free values. -/
def Obligations.ResetLeavesEveryRegisterAtItsSpecValue : Prop :=
  State.reset.statusByte = 0x00 ∧ State.reset.result = 0x00 ∧ State.reset.crc = 0x00 ∧
  State.reset.crcDin = 0x00 ∧ State.reset.rxAction = 0x00 ∧ State.reset.rxPlen = 0x00 ∧
  State.reset.txAction = 0x00 ∧ pairValue State.reset.inLen = 0x0000 ∧
  pairValue State.reset.txPlen = 0x0000 ∧ pairValue State.reset.txFlen = 0x0000 ∧
  State.reset.params.inCap = 254 ∧ State.reset.params.outCap = 254 ∧
  State.reset.readReg .cmd = 0x00 ∧ State.reset.pending = none ∧
  ∀ a, State.reset.byteAt a = Config.freeByte State.reset.epoch a

/-- 70_reset_and_hazards.md R201: the reset input, whatever was pending. -/
def Obligations.ResetInputResetsRegistersAndFreesBuffers : Prop :=
  ∀ (s : State) (rest : List Input), s.inputs = .reset :: rest → s.takesInput →
    ∃ t, step s = .next t ∧ t.statusByte = 0x00 ∧ t.result = 0x00 ∧ t.crc = 0x00 ∧ t.crcDin = 0x00 ∧
      t.rxAction = 0x00 ∧ t.rxPlen = 0x00 ∧ t.txAction = 0x00 ∧ pairValue t.inLen = 0 ∧
      pairValue t.txPlen = 0 ∧ pairValue t.txFlen = 0 ∧ t.pending = none ∧ t.params = s.params ∧
      t.inputs = rest ∧ ∀ a, t.byteAt a = Config.freeByte s.draws a

/-! ## Host reads -/

/-- 10_state.md R23: STATUS reads bit 0 as BUSY and bits 7:1 as 0, always exactly; writes are ignored. -/
def Obligations.StatusReadsBusyExactly : Prop :=
  State.reset.statusByte = 0x00 ∧
  ∀ (s : State), exec (.rd 0x001) s = .next { s with answer := some (if s.pending = none then 0x00 else 0x01) } ∧
    ∀ v, exec (.wr 0x001 v) s = .next s

/-- 20_memory.md R53, HostRead, with the map of R52 and the regions of R51: the byte a read returns where it is no
output of the pending command. -/
def Obligations.HostReadReturnsTheByteOfTheMap : Prop :=
  ∀ (s : State) (off : Offset), s.params.ok → s.outputHazard (s.targetOf off) = false →
    ∃ b, exec (.rd off) s = .next { s with answer := some b } ∧
      (off = 0x000 → b = 0x00) ∧ (off = 0x001 → b = if s.busy then 0x01 else 0x00) ∧
      (off = 0x002 → b = s.result) ∧ (off = 0x003 → b = s.crc) ∧ (off = 0x004 → b = s.crcDin) ∧
      (off = 0x005 → b = s.rxAction) ∧ (off = 0x006 → b = s.rxPlen) ∧ (off = 0x007 → b = s.txAction) ∧
      (off = 0x008 → b = s.inLen.lo) ∧ (off = 0x009 → b = s.inLen.hi) ∧
      (off = 0x00A → b = s.txPlen.lo) ∧ (off = 0x00B → b = s.txPlen.hi) ∧
      (off = 0x00C → b = s.txFlen.lo) ∧ (off = 0x00D → b = s.txFlen.hi) ∧
      (off = 0x00E → b = BitVec.ofNat 8 s.params.inCap) ∧
      (off = 0x00F → b = BitVec.ofNat 8 (s.params.inCap / 256)) ∧
      (off = 0x010 → b = BitVec.ofNat 8 s.params.outCap) ∧
      (off = 0x011 → b = BitVec.ofNat 8 (s.params.outCap / 256)) ∧
      (∀ i, i < 255 → off.toNat = 0x100 + i → b = s.byteAt (0x100 + i)) ∧
      (∀ i, i < s.params.inCap → off.toNat = 0x200 + i → b = s.byteAt (0x200 + i)) ∧
      (∀ i, i < s.params.outCap → off.toNat = 0x400 + i → b = s.byteAt (0x400 + i))

/-- 70_reset_and_hazards.md R213, for the four commands of R84: an output read while busy is a free byte, STATUS is
exact, and anything else returns its value. -/
def Obligations.OutputReadWhileBusyIsFree : Prop :=
  ∀ (s : State) (p : Pending) (off : Offset), s.pending = some p → p.op ∈ commandCodes →
    (isOutput (decodeCmd p.op) (s.targetOf off) = true →
      exec (.rd off) s = .next { s with
        answer := some (Config.freeByte s.draws off.toNat), draws := s.draws + 1 }) ∧
    (off = 0x001 → exec (.rd off) s = .next { s with answer := some 0x01 }) ∧
    (isOutput (decodeCmd p.op) (s.targetOf off) = false →
      exec (.rd off) s = .next { s with answer := some (s.readTarget (s.targetOf off)) })

/-- 70_reset_and_hazards.md R213 while an illegal command is pending. That RESULT is then free is the MODEL'S
CHOICE (log 11): R84's table has no row for an illegal command. -/
def Obligations.ResultReadWhileIllegalPendingIsFree : Prop :=
  ∀ (s : State) (p : Pending) (off : Offset), s.pending = some p → p.op ∉ commandCodes →
    (off = 0x002 → exec (.rd off) s = .next { s with
      answer := some (Config.freeByte s.draws 0x002), draws := s.draws + 1 }) ∧
    (off ≠ 0x002 → exec (.rd off) s = .next { s with answer := some (s.readTarget (s.targetOf off)) })

/-- 20_memory.md R59, reads: a read completes, changes nothing of the FCB (only the byte answered and the count of
free values), and returns the same byte again unless it is an output of the pending command. -/
def Obligations.HostReadHasNoSideEffect : Prop :=
  ∀ (s : State) (off : Offset), ∃ t, exec (.rd off) s = .next t ∧
    t = { s with answer := t.answer, draws := t.draws } ∧ (∀ a, t.byteAt a = s.byteAt a) ∧
    (s.outputHazard (s.targetOf off) = false → exec (.rd off) t = .next t)

/-- 30_encoding.md R84: the outputs of each command, STATUS apart. -/
def Obligations.OutputsOfEachCommand : Prop :=
  ∀ (t : Target),
    (isOutput .crcInit t = true ↔ t = .reg .crc ∨ t = .reg .result) ∧
    (isOutput .crcUpdate t = true ↔ t = .reg .crc ∨ t = .reg .result) ∧
    (isOutput .decode t = true ↔ t = .reg .crc ∨ t = .reg .rxAction ∨ t = .reg .rxPlen ∨ t = .reg .result) ∧
    (isOutput .encode t = true ↔ t = .reg .crc ∨ (∃ i, t = .outBuf i) ∨ t = .reg .txFlenLo ∨
      t = .reg .txFlenHi ∨ t = .reg .result)

/-- 70_reset_and_hazards.md R212 with 30_encoding.md R84: the inputs of each command that the host can write. -/
def Obligations.InputsOfEachCommand : Prop :=
  ∀ (t : Target),
    isInput .crcInit t = false ∧ (∀ op, isInput (.illegal op) t = false) ∧
    (isInput .crcUpdate t = true ↔ t = .reg .crcDin) ∧
    (isInput .decode t = true ↔ t = .reg .inLenLo ∨ t = .reg .inLenHi ∨ ∃ i, t = .inBuf i) ∧
    (isInput .encode t = true ↔ t = .reg .txAction ∨ t = .reg .txPlenLo ∨ t = .reg .txPlenHi ∨
      ∃ i, t = .plBuf i)

/-! ## Host writes -/

/-- 20_memory.md R53, HostWrite, and R56: a write of a register byte with access RW stores that byte alone. -/
def Obligations.WriteStoresTheRegisterByte : Prop :=
  ∀ (s : State) (v : Byte),
    (s.inputHazard (.reg .crcDin) = false → exec (.wr 0x004 v) s = .next { s with crcDin := v }) ∧
    (s.inputHazard (.reg .txAction) = false → exec (.wr 0x007 v) s = .next { s with txAction := v }) ∧
    (s.inputHazard (.reg .inLenLo) = false →
      exec (.wr 0x008 v) s = .next { s with inLen := { lo := v, hi := s.inLen.hi } }) ∧
    (s.inputHazard (.reg .inLenHi) = false →
      exec (.wr 0x009 v) s = .next { s with inLen := { lo := s.inLen.lo, hi := v } }) ∧
    (s.inputHazard (.reg .txPlenLo) = false →
      exec (.wr 0x00A v) s = .next { s with txPlen := { lo := v, hi := s.txPlen.hi } }) ∧
    (s.inputHazard (.reg .txPlenHi) = false →
      exec (.wr 0x00B v) s = .next { s with txPlen := { lo := s.txPlen.lo, hi := v } })

/-- 20_memory.md R53, HostWrite: a write of a byte of PL_BUF or IN_BUF stores it there and nowhere else. -/
def Obligations.WriteStoresTheBufferByte : Prop :=
  ∀ (s : State) (v : Byte) (i : Nat), s.params.ok →
    (i < 255 → s.inputHazard (.plBuf i) = false →
      ∃ t, exec (.wr (BitVec.ofNat 11 (0x100 + i)) v) s = .next t ∧ t = { s with mem := t.mem } ∧
        t.plByte i = v ∧ ∀ a, a ≠ 0x100 + i → t.byteAt a = s.byteAt a) ∧
    (i < s.params.inCap → s.inputHazard (.inBuf i) = false →
      ∃ t, exec (.wr (BitVec.ofNat 11 (0x200 + i)) v) s = .next t ∧ t = { s with mem := t.mem } ∧
        t.inByte i = v ∧ ∀ a, a ≠ 0x200 + i → t.byteAt a = s.byteAt a)

/-- 20_memory.md R54: reserved offsets read as 0x00 and ignore writes; STATUS bits 7:1 read 0. -/
def Obligations.ReservedOffsetsReadZeroAndIgnoreWrites : Prop :=
  ∀ (s : State) (off : Offset), s.params.ok →
    ((0x012 ≤ off.toNat ∧ off.toNat ≤ 0x0FF) ∨ off.toNat = 0x1FF ∨
      (0x200 + s.params.inCap ≤ off.toNat ∧ off.toNat ≤ 0x3FF) ∨
      (0x400 + s.params.outCap ≤ off.toNat ∧ off.toNat ≤ 0x7FF) →
      exec (.rd off) s = .next { s with answer := some 0x00 } ∧ ∀ v, exec (.wr off v) s = .next s) ∧
    (∀ k, 1 ≤ k → s.statusByte.getLsbD k = false)

/-- 20_memory.md R59: writes to `R` registers and to OUT_BUF have no effect, busy or not. -/
def Obligations.WritesOfReadOnlyBytesHaveNoEffect : Prop :=
  ∀ (s : State) (off : Offset) (v : Byte), s.params.ok →
    off.toNat ∈ [0x001, 0x002, 0x003, 0x005, 0x006, 0x00C, 0x00D, 0x00E, 0x00F, 0x010, 0x011] ∨
      (0x400 ≤ off.toNat ∧ off.toNat < 0x400 + s.params.outCap) →
    exec (.wr off v) s = .next s

/-- 70_reset_and_hazards.md R210 and R211: a CMD write is accepted when idle, as any code, and ignored when busy.
How long the command then takes is `nextLatency` (log 1). -/
def Obligations.CommandWriteAcceptedOnlyWhenIdle : Prop :=
  ∀ (s : State) (v : Byte),
    (s.pending = none → ∃ t, exec (.wr 0x000 v) s = .next t ∧ t.pending = some { op := v, tainted := false } ∧
      t.statusByte = 0x01 ∧ t.left = s.nextLatency ∧
      t = { s with pending := t.pending, left := t.left, latencies := s.latencies.tail, draws := t.draws }) ∧
    (s.pending ≠ none → exec (.wr 0x000 v) s = .next s)

/-- 70_reset_and_hazards.md R212, the write: an input of the pending command is stored as usual, and the command is
tainted, even if the byte written equals the byte held. -/
def Obligations.InputWriteTaintsThePendingCommand : Prop :=
  ∀ (s : State) (p : Pending) (off : Offset) (v : Byte), s.pending = some p →
    isInput (decodeCmd p.op) (s.targetOf off) = true →
    ∃ t, exec (.wr off v) s = .next t ∧ t.pending = some { op := p.op, tainted := true } ∧
      t.readTarget (s.targetOf off) = v ∧ t.left = s.left

/-- 70_reset_and_hazards.md R214: a write of an RW register or buffer byte that is no input of the pending command
takes effect at once and does not affect that command. -/
def Obligations.WriteOfNonInputLeavesThePendingCommand : Prop :=
  ∀ (s : State) (p : Pending) (off : Offset) (v : Byte), s.pending = some p →
    isInput (decodeCmd p.op) (s.targetOf off) = false →
    ((∃ r, s.targetOf off = .reg r ∧ regAccess r = .rw) ∨ (∃ i, s.targetOf off = .plBuf i) ∨
      (∃ i, s.targetOf off = .inBuf i)) →
    ∃ t, exec (.wr off v) s = .next t ∧ t.pending = some p ∧ t.left = s.left ∧
      t.readTarget (s.targetOf off) = v

/-- The frame of `wr`: what a host write leaves unchanged, at every offset, idle or busy. The one byte of memory it
may store to is the one at its own offset, and only in PL_BUF and IN_BUF. -/
def Obligations.WriteFrame : Prop :=
  ∀ (s : State) (off : Offset) (v : Byte), ∃ t, exec (.wr off v) s = .next t ∧
    t.result = s.result ∧ t.crc = s.crc ∧ t.rxAction = s.rxAction ∧ t.rxPlen = s.rxPlen ∧
    t.txFlen = s.txFlen ∧ t.params = s.params ∧ t.epoch = s.epoch ∧ t.answer = s.answer ∧
    t.inputs = s.inputs ∧
    (off ≠ 0x004 → t.crcDin = s.crcDin) ∧ (off ≠ 0x007 → t.txAction = s.txAction) ∧
    (off ≠ 0x008 → t.inLen.lo = s.inLen.lo) ∧ (off ≠ 0x009 → t.inLen.hi = s.inLen.hi) ∧
    (off ≠ 0x00A → t.txPlen.lo = s.txPlen.lo) ∧ (off ≠ 0x00B → t.txPlen.hi = s.txPlen.hi) ∧
    (off ≠ 0x000 → t.left = s.left ∧ t.latencies = s.latencies ∧ t.draws = s.draws ∧
      t.pending.map (·.op) = s.pending.map (·.op)) ∧
    (∀ a, a ≠ off.toNat → t.byteAt a = s.byteAt a) ∧
    ((∀ i, s.targetOf off ≠ .plBuf i) → (∀ i, s.targetOf off ≠ .inBuf i) → ∀ a, t.byteAt a = s.byteAt a)

/-! ## The CRC -/

/-- 40_crc.md R116: CRC_INIT, with its whole frame. -/
def Obligations.CrcInitClearsTheAccumulator : Prop :=
  ∀ (s : State), exec .crcInit s = .next { s with crc := 0x00, result := 0x01, pending := none }

/-- 40_crc.md R117: CRC_UPDATE on untouched inputs, with its whole frame and its corner cases. -/
def Obligations.CrcUpdateFeedsOneByte : Prop :=
  (∀ (s : State), s.tainted = false →
    exec .crcUpdate s = .next { s with crc := crc8Step s.crc s.crcDin, result := 0x01, pending := none }) ∧
  (∀ v, crc8Step v v = 0x00) ∧ crc8Step 0xFF 0x00 = 0xF3 ∧
  (∀ (s : State) (seq : List Byte), s.tainted = false → s.crc = crc8 seq →
    ∃ t, exec .crcUpdate s = .next t ∧ t.crc = crc8 (seq ++ [s.crcDin])) ∧
  crc8 [] = 0x00

/-- 40_crc.md R113: CRC-8 is the remainder of M(x) · x^8 by G(x) = x^8 + x^2 + x + 1 over GF(2), bit 7 of the first
byte the highest coefficient, and a sequence followed by its own CRC has remainder zero. -/
def Obligations.Crc8IsThePolynomialRemainder : Prop :=
  ∀ (seq : List Byte),
    (letI bits (b : Byte) : List Bool := (List.range 8).map fun k => b.getLsbD (7 - k)
     letI poly (l : List Bool) : Polynomial (ZMod 2) :=
       l.foldl (fun q b => q * Polynomial.X + if b then 1 else 0) 0
     (poly (seq.flatMap bits) * Polynomial.X ^ 8) %ₘ
         (Polynomial.X ^ 8 + Polynomial.X ^ 2 + Polynomial.X + 1) = poly (bits (crc8 seq))) ∧
    crc8 (seq ++ [crc8 seq]) = 0x00

/-- 40_crc.md R114: linearity. -/
def Obligations.Crc8IsLinear : Prop :=
  ∀ (a b : List Byte), a.length = b.length →
    crc8 (List.zipWith (· ^^^ ·) a b) = crc8 a ^^^ crc8 b

/-- 40_crc.md R115: flipping any one bit of a sequence changes its CRC. -/
def Obligations.Crc8DetectsEveryBitFlip : Prop :=
  ∀ (seq : List Byte) (i k : Nat) (h : i < seq.length), k < 8 →
    crc8 (seq.set i (seq[i] ^^^ (1#8 <<< k))) ≠ crc8 seq

/-! ## DECODE -/

/-- 41_framing.md R132, R133, R145: the length checks; RESULT is LEN and nothing else changes, CRC included. -/
def Obligations.DecodeTooShortReportsLen : Prop :=
  ∀ (s : State), s.tainted = false →
    min (pairValue s.inLen) s.params.inCap < 8 ∨
      min (pairValue s.inLen) s.params.inCap < 8 + (s.inByte 5).toNat →
    exec .decode s = .next { s with result := 0x02, pending := none }

/-- 41_framing.md R135: a frame long enough with a wrong sentinel; RESULT is FORMAT and nothing else changes, CRC
included, whatever the checksum is (R138). -/
def Obligations.DecodeBadSentinelReportsFormat : Prop :=
  ∀ (s : State) (n : Nat), s.tainted = false → n = (s.inByte 5).toNat →
    8 + n ≤ min (pairValue s.inLen) s.params.inCap → s.inByte 0 ≠ 0xAA ∨ s.inByte (7 + n) ≠ 0x55 →
    exec .decode s = .next { s with result := 0x03, pending := none }

/-- 41_framing.md R136 and R137: past length and sentinels, CRC takes the checksum of IN[1 .. 5 + n] computed from
0x00; a wrong checksum byte gives CHECKSUM, a right one OK with RX_ACTION and RX_PLEN, and nothing else changes. CRC
is not written before that stage, nor RX_ACTION and RX_PLEN but on OK. -/
def Obligations.DecodeChecksTheChecksum : Prop :=
  (∀ (s : State) (n : Nat) (c : Byte), s.tainted = false → n = (s.inByte 5).toNat →
    8 + n ≤ min (pairValue s.inLen) s.params.inCap → s.inByte 0 = 0xAA → s.inByte (7 + n) = 0x55 →
    c = crc8 ((List.range' 1 (5 + n)).map s.inByte) →
    (c ≠ s.inByte (6 + n) →
      exec .decode s = .next { s with crc := c, result := 0x04, pending := none }) ∧
    (c = s.inByte (6 + n) →
      exec .decode s = .next { s with
        crc := c, rxAction := s.inByte 1, rxPlen := s.inByte 5, result := 0x01, pending := none })) ∧
  (∀ (s t : State), s.tainted = false → exec .decode s = .next t →
    (t.result = 0x02 ∨ t.result = 0x03 → t.crc = s.crc) ∧
    (t.result ≠ 0x01 → t.rxAction = s.rxAction ∧ t.rxPlen = s.rxPlen))

/-- 41_framing.md R139: bytes of IN_BUF after the frame, and at `L` and above, have no part in a DECODE, and a
longer IN_LEN gives the same outcome. -/
def Obligations.DecodeIgnoresBytesOutsideTheFrame : Prop :=
  ∀ (s t : State), s.tainted = false → exec .decode s = .next t →
    (∀ (m : Memory),
      (∀ j, j < min (pairValue s.inLen) s.params.inCap → j ≤ 7 + (s.inByte 5).toNat →
        State.inByte { s with mem := m } j = s.inByte j) →
      exec .decode { s with mem := m } = .next { t with mem := m }) ∧
    (∀ (l : Pair), 8 + (s.inByte 5).toNat ≤ min (pairValue s.inLen) s.params.inCap →
      8 + (s.inByte 5).toNat ≤ min (pairValue l) s.params.inCap →
      exec .decode { s with inLen := l } = .next { t with inLen := l })

/-- 41_framing.md R140: DECODE's frame, tainted or not; on a failure RX_ACTION and RX_PLEN keep their values. -/
def Obligations.DecodeFrame : Prop :=
  ∀ (s : State), ∃ t, exec .decode s = .next t ∧
    t = { s with
      crc := t.crc, rxAction := t.rxAction, rxPlen := t.rxPlen, result := t.result, pending := none,
      draws := t.draws } ∧
    (∀ a, t.byteAt a = s.byteAt a) ∧
    (s.tainted = false → t.draws = s.draws ∧
      (t.result ≠ 0x01 → t.rxAction = s.rxAction ∧ t.rxPlen = s.rxPlen))

/-- 41_framing.md R141: DECODE twice on an unchanged IN_BUF gives the same result and the same outputs. -/
def Obligations.DecodeTwiceIsDecodeOnce : Prop :=
  ∀ (s t : State), s.tainted = false → exec .decode s = .next t → exec .decode t = .next t

/-- 41_framing.md R143: a frame that decodes OK, with one bit flipped in byte 1 to 4, a payload byte or the checksum
byte, gives CHECKSUM; flipped in byte 5, it gives what the new length gives, and that can be CHECKSUM, or even OK. -/
def Obligations.DecodeDetectsEveryCoveredBitFlip : Prop :=
  (∀ (s t : State) (i k : Nat), s.tainted = false → exec .decode s = .next t → t.result = 0x01 → k < 8 →
    ((1 ≤ i ∧ i ≤ 4) ∨ (6 ≤ i ∧ i ≤ 6 + (s.inByte 5).toNat) →
      ∃ u, exec .decode (s.store (inBase + i) (s.inByte i ^^^ (1#8 <<< k))) = .next u ∧ u.result = 0x04) ∧
    (∀ n', n' = (s.inByte 5 ^^^ (1#8 <<< k)).toNat →
      ∃ u, exec .decode (s.store (inBase + 5) (s.inByte 5 ^^^ (1#8 <<< k))) = .next u ∧
        (min (pairValue s.inLen) s.params.inCap < 8 + n' → u.result = 0x02) ∧
        (8 + n' ≤ min (pairValue s.inLen) s.params.inCap → s.inByte (7 + n') ≠ 0x55 → u.result = 0x03))) ∧
  (∀ r ∈ [(0x04 : Byte), 0x01], ∃ (s t u : State) (k : Nat), k < 8 ∧ s.tainted = false ∧
    exec .decode s = .next t ∧ t.result = 0x01 ∧
    exec .decode (s.store (inBase + 5) (s.inByte 5 ^^^ (1#8 <<< k))) = .next u ∧ u.result = r)

/-- 41_framing.md R144: a frame that decodes OK, with either sentinel changed, gives FORMAT. -/
def Obligations.DecodeDetectsEveryChangedSentinel : Prop :=
  ∀ (s t : State) (v : Byte), s.tainted = false → exec .decode s = .next t → t.result = 0x01 →
    (v ≠ 0xAA → ∃ u, exec .decode (s.store inBase v) = .next u ∧ u.result = 0x03) ∧
    (v ≠ 0x55 → ∃ u, exec .decode (s.store (inBase + (7 + (s.inByte 5).toNat)) v) = .next u ∧ u.result = 0x03)

/-! ## ENCODE -/

/-- 41_framing.md R151, R153 to R156: a payload that fits is framed. -/
def Obligations.EncodeBuildsTheFrame : Prop :=
  ∀ (s : State) (n : Nat), s.tainted = false → n = pairValue s.txPlen → n ≤ 255 → 8 + n ≤ s.params.outCap →
    ∃ t, exec .encode s = .next t ∧ t.result = 0x01 ∧ t.pending = none ∧
      t.outByte 0 = 0xAA ∧ t.outByte 1 = s.txAction ∧
      t.outByte 2 = 0x00 ∧ t.outByte 3 = 0x00 ∧ t.outByte 4 = 0x00 ∧ t.outByte 5 = BitVec.ofNat 8 n ∧
      (∀ k, k < n → t.outByte (6 + k) = s.plByte k) ∧
      t.outByte (6 + n) = crc8 ((List.range' 1 (5 + n)).map t.outByte) ∧
      t.crc = crc8 ((List.range' 1 (5 + n)).map t.outByte) ∧
      t.outByte (7 + n) = 0x55 ∧ (∀ i, 8 + n ≤ i → i < s.params.outCap → t.outByte i = 0x00) ∧
      pairValue t.txFlen = 8 + n

/-- 41_framing.md R152 and R157: a payload that does not fit gives LEN and nothing else changes. -/
def Obligations.EncodeTooLongReportsLen : Prop :=
  ∀ (s : State), s.tainted = false → 255 < pairValue s.txPlen ∨ s.params.outCap < 8 + pairValue s.txPlen →
    exec .encode s = .next { s with result := 0x02, pending := none }

/-- 41_framing.md R158: ENCODE's frame, tainted or not. The bytes it stores to are all `OUT_CAP` of OUT_BUF. -/
def Obligations.EncodeFrame : Prop :=
  ∀ (s : State), ∃ t, exec .encode s = .next t ∧
    t = { s with
      crc := t.crc, txFlen := t.txFlen, mem := t.mem, result := t.result, pending := none, draws := t.draws } ∧
    (∀ a, a < outBase ∨ outBase + s.params.outCap ≤ a → t.byteAt a = s.byteAt a) ∧
    (s.tainted = false → t.draws = s.draws)

/-- 41_framing.md R158, R159: staged bytes at `PL[n ..]` and everything else outside `PL[0 .. n − 1]` have no part
in an ENCODE that succeeds. -/
def Obligations.EncodeReadsOnlyThePayload : Prop :=
  ∀ (s t : State) (m : Memory), s.tainted = false → exec .encode s = .next t → t.result = 0x01 →
    (∀ k, k < pairValue s.txPlen → State.plByte { s with mem := m } k = s.plByte k) →
    ∃ u, exec .encode { s with mem := m } = .next u ∧ u.result = 0x01 ∧ u.crc = t.crc ∧ u.txFlen = t.txFlen ∧
      ∀ i, i < s.params.outCap → u.outByte i = t.outByte i

/-- 00_scope.md R11: the largest payload the FCB can frame is min(255, OUT_CAP − 8), and the largest it can deframe is
min(255, IN_CAP − 8): it deframes every length up to that one, and none above. -/
def Obligations.LargestPayloads : Prop :=
  (∀ (s t : State), s.params.ok → s.tainted = false →
    (exec .encode s = .next t →
      (t.result = 0x01 ↔ pairValue s.txPlen ≤ min 255 (s.params.outCap - 8))) ∧
    (exec .decode s = .next t → t.result = 0x01 → t.rxPlen.toNat ≤ min 255 (s.params.inCap - 8))) ∧
  (∀ (p : Params) (n : Nat), p.ok → n ≤ min 255 (p.inCap - 8) →
    ∃ s t : State, s.params = p ∧ s.tainted = false ∧ exec .decode s = .next t ∧ t.result = 0x01 ∧
      t.rxPlen.toNat = n)

/-- 41_framing.md R142: the round trip. `u` is any state whose IN_BUF holds the frame ENCODE built, with IN_LEN its
length: DECODE gives back the action, the payload length, the payload and the CRC. -/
def Obligations.DecodeOfEncodeRoundTrip : Prop :=
  ∀ (s t u : State), s.tainted = false → exec .encode s = .next t → t.result = 0x01 →
    u.tainted = false → pairValue u.inLen = pairValue t.txFlen → pairValue t.txFlen ≤ u.params.inCap →
    (∀ i, i < pairValue t.txFlen → u.inByte i = t.outByte i) →
    ∃ w, exec .decode u = .next w ∧ w.result = 0x01 ∧ w.rxAction = s.txAction ∧
      w.rxPlen.toNat = pairValue s.txPlen ∧ (∀ k, k < pairValue s.txPlen → w.inByte (6 + k) = s.plByte k) ∧
      w.crc = t.crc

/-! ## Taint and illegal codes -/

/-- 70_reset_and_hazards.md R212, the completion of a tainted command: each output is its own free value (for
OUT_BUF per byte), RESULT is any legal code of that command, and nothing else changes. -/
def Obligations.TaintedCommandLeavesFreeOutputs : Prop :=
  ∀ (s : State), s.tainted = true →
    (∃ t, exec .crcUpdate s = .next t ∧ t.result = 0x01 ∧ t.crc = Config.freeByte s.draws 0x003 ∧
      t = { s with crc := t.crc, result := t.result, pending := none, draws := s.draws + 1 }) ∧
    (∃ t, exec .decode s = .next t ∧ t.result ∈ [0x01, 0x02, 0x03, 0x04] ∧
      t.crc = Config.freeByte s.draws 0x003 ∧ t.rxAction = Config.freeByte s.draws 0x005 ∧
      t.rxPlen = Config.freeByte s.draws 0x006 ∧
      t = { s with
        crc := t.crc, rxAction := t.rxAction, rxPlen := t.rxPlen, result := t.result, pending := none,
        draws := s.draws + 1 }) ∧
    (∃ t, exec .encode s = .next t ∧ t.result ∈ [0x01, 0x02] ∧
      t.crc = Config.freeByte s.draws 0x003 ∧
      t.txFlen = ⟨Config.freeByte s.draws 0x00C, Config.freeByte s.draws 0x00D⟩ ∧
      (∀ i, i < s.params.outCap → t.outByte i = Config.freeByte s.draws (0x400 + i)) ∧
      (∀ a, a < 0x400 ∨ 0x400 + s.params.outCap ≤ a → t.byteAt a = s.byteAt a) ∧
      t = { s with
        crc := t.crc, txFlen := t.txFlen, mem := t.mem, result := t.result, pending := none,
        draws := s.draws + 1 })

/-- 30_encoding.md R83 and 60_exceptions.md R172: every other code is an illegal command, accepted like any other,
and it completes with ILLEGAL_CMD and changes no other state. -/
def Obligations.IllegalCodeCompletesWithIllegalCmd : Prop :=
  (∀ (op : Byte), op = 0x00 ∨ 0x05 ≤ op.toNat → decode (.cmd8 op) = .ok (.illegal op)) ∧
  (∀ (op : Byte) (s : State), exec (.illegal op) s = .next { s with result := 0x05, pending := none }) ∧
  (∀ (op : Byte) (s : State), s.pending = none →
    ∃ t, exec (.wr 0x000 op) s = .next t ∧ t.pending = some { op := op, tainted := false })

/-! ## The step -/

/-- A step runs the decoded instruction. With no access left to wait for it is the pending command, in the state as
it stands (10_state.md R26); that it is the pending command too where accesses are left but no input comes is the
MODEL'S CHOICE (log 10). Else it is the host's next bus word, in the state with that word taken and one access less to
wait for (the model's own fields, log 1 and log 8). -/
def Obligations.StepRunsTheDecodedInstruction : Prop :=
  (∀ (s : State) (p : Pending) (i : Instr), s.pending = some p → s.left = 0 ∨ s.inputs = [] →
    decode (.cmd8 p.op) = .ok i → step s = exec i s) ∧
  (∀ (s : State) (w : BusWord) (rest : List Input) (i : Instr), s.inputs = .word w :: rest → s.takesInput →
    decode (.bus20 w) = .ok i → step s = exec i { s with inputs := rest, left := s.left - 1 })

/-- 20_memory.md R50: at every FCB_BASE, an 8-bit cycle of the host at `FCB_BASE + off` is the access at `off`, and
a cycle outside the window has no effect on the FCB (that clause is the MODEL'S CHOICE, log 14). -/
def Obligations.BusCycleReachesItsOffset : Prop :=
  ∀ (s : State) (c : BusCycle) (rest : List Input), s.inputs = .cycle c :: rest → s.takesInput →
    (∀ off : Offset, c.master = .host → c.bits = 8 → c.addr = s.params.base + off.toNat →
      (∀ v, c.data = some v → step s = exec (.wr off v) { s with inputs := rest, left := s.left - 1 }) ∧
      (c.data = none → step s = exec (.rd off) { s with inputs := rest, left := s.left - 1 })) ∧
    (c.addr + c.span ≤ s.params.base ∨ s.params.base + 0x800 ≤ c.addr → step s = .next { s with inputs := rest })

/-- 20_memory.md R57: an access of the host in the window, wider or narrower than 8 bits, is refused. -/
def Obligations.OtherWidthsAreRefused : Prop :=
  ∀ (s : State) (c : BusCycle) (rest : List Input) (off : Offset), s.inputs = .cycle c :: rest → s.takesInput →
    c.addr = s.params.base + off.toNat → c.master = .host → c.bits ≠ 8 → step s = .refused (.accessWidth c.bits)

/-- 60_exceptions.md R180: an access of a second master in the window is refused, whatever its width. -/
def Obligations.SecondMasterIsRefused : Prop :=
  ∀ (s : State) (c : BusCycle) (rest : List Input) (off : Offset), s.inputs = .cycle c :: rest → s.takesInput →
    c.addr = s.params.base + off.toNat → c.master = .other → step s = .refused .secondMaster

/-- 60_exceptions.md R170: no command and no access stops the FCB. A step has a next state whatever is pending and
whatever the commands find, unless it takes an input that is no access: a bus cycle in the window that is not the host's
or not of 8 bits (R180, 20_memory.md R57), or a bus word that encodes none (log 9). -/
def Obligations.NoCommandOrAccessStopsTheMachine : Prop :=
  ∀ (s : State),
    (s.takesInput → ∀ c rest, s.inputs = .cycle c :: rest → (c.master = .host ∧ c.bits = 8) ∨
      c.addr + c.span ≤ s.params.base ∨ s.params.base + 0x800 ≤ c.addr) →
    (s.takesInput → ∀ w rest, s.inputs = .word w :: rest → ∃ i, decode (.bus20 w) = .ok i) →
    ∃ t, step s = .next t

/-- With nothing pending and no input, the FCB stands still (10_state.md R21, 70_reset_and_hazards.md R203). -/
def Obligations.IdleMachineStandsStill : Prop :=
  ∀ (s : State), s.pending = none → s.inputs = [] → step s = .next s

/-- 10_state.md R26, 70_reset_and_hazards.md R211: until its completion step a pending command stays the pending
command through every host access, and RESULT, CRC, RX_ACTION, RX_PLEN, TX_FLEN and OUT_BUF stay as they are
(20_memory.md R60). MODEL'S CHOICES: that the completion step is still to come is `0 < left` with an input to take, and
each access brings it one nearer (log 1, log 10). -/
def Obligations.PendingCommandOutlastsHostAccesses : Prop :=
  ∀ (s t : State) (p : Pending), s.params.ok → s.pending = some p → 0 < s.left → s.inputs ≠ [] →
    (∀ rest, s.inputs ≠ .reset :: rest) → step s = .next t →
    (∃ b, t.pending = some { op := p.op, tainted := b } ∧ (p.tainted = true → b = true)) ∧
    t.left ≤ s.left ∧ s.left ≤ t.left + 1 ∧ t.result = s.result ∧ t.crc = s.crc ∧
    t.rxAction = s.rxAction ∧ t.rxPlen = s.rxPlen ∧ t.txFlen = s.txFlen ∧
    ∀ i, i < s.params.outCap → t.outByte i = s.outByte i

/-- 30_encoding.md R101 and 70_reset_and_hazards.md R216: WAIT ends, for every latency: BUSY has read 0, and the
command has completed with one of its legal codes. R216 gives no bound; the number of steps is the MODEL'S CHOICE of a
schedule (log 1): `left` polls, the completion step, and one more poll. -/
def Obligations.WaitEndsWithTheCommandCompleted : Prop :=
  ∀ (s : State) (p : Pending) (rest : List Input), s.pending = some p → s.inputs = .wait :: rest →
    ∃ t, core.run (s.left + 2) s = .next t ∧ t.pending = none ∧ t.inputs = rest ∧ t.answer = some 0x00 ∧
      t.result ∈ (legalCodes (decodeCmd p.op)).map ResultCode.byte

/-- 30_encoding.md R101, 10_state.md R26, 20_memory.md R61: from an idle FCB, a write of a command code to CMD and then
WAIT is that command's completion step done once, whole, for every latency. It covers CRC.INIT, DECODE, ENCODE, the
second half of CRC.UPD, and illegal codes. Beside the command's own effect only the model's own fields move: the inputs
taken, the byte the last poll answered, the latency taken and the count of free values. The number of steps is the
MODEL'S CHOICE of a schedule (log 1). -/
def Obligations.CommandThenWaitIsTheCommand : Prop :=
  ∀ (s : State) (c : Byte) (rest : List Input), s.pending = none → s.inputs = wrReg .cmd c :: .wait :: rest →
    ∃ t w, core.run (s.nextLatency + 3) s = .next t ∧ exec (decodeCmd c) s = .next w ∧
      t = { w with
        inputs := rest, answer := some 0x00, left := t.left, latencies := t.latencies, draws := t.draws }

/-- 30_encoding.md R101: LOADIN leaves the bytes in IN_BUF and their number in IN_LEN, and nothing else changes but
the model's own fields for the inputs and accesses taken. -/
def Obligations.LoadInStoresTheBytesAndTheirNumber : Prop :=
  ∀ (s : State) (bytes : List Byte) (rest : List Input), s.params.ok → s.pending = none →
    bytes.length ≤ s.params.inCap → s.inputs = (Pseudo.loadIn bytes).expand ++ rest →
    ∃ t, core.run (bytes.length + 2) s = .next t ∧
      t = { s with mem := t.mem, inLen := t.inLen, inputs := rest, left := t.left } ∧
      pairValue t.inLen = bytes.length ∧ (∀ i (h : i < bytes.length), t.inByte i = bytes[i]) ∧
      ∀ a, a < inBase ∨ inBase + bytes.length ≤ a → t.byteAt a = s.byteAt a

/-- 30_encoding.md R101: LOADPL leaves the action in TX_ACTION, the payload in PL_BUF and its length in TX_PLEN, and
nothing else changes but the model's own fields for the inputs and accesses taken. -/
def Obligations.LoadPlStagesTheActionAndThePayload : Prop :=
  ∀ (s : State) (action : Byte) (payload : List Byte) (rest : List Input), s.params.ok → s.pending = none →
    payload.length ≤ 255 → s.inputs = (Pseudo.loadPl action payload).expand ++ rest →
    ∃ t, core.run (payload.length + 3) s = .next t ∧
      t = { s with mem := t.mem, txAction := action, txPlen := t.txPlen, inputs := rest, left := t.left } ∧
      pairValue t.txPlen = payload.length ∧ (∀ i (h : i < payload.length), t.plByte i = payload[i]) ∧
      ∀ a, a < plBase ∨ plBase + payload.length ≤ a → t.byteAt a = s.byteAt a

/-- The invariant of the model (10_state.md R24, R34, R35; 20_memory.md R51) is kept by every step. -/
def Obligations.EveryStepKeepsTheInvariant : Prop :=
  ∀ (s t : State), s.Inv → step s = .next t → t.Inv

/-- The invariant holds right after reset. -/
def Obligations.ResetMeetsTheInvariant : Prop := State.reset.Inv

/-- 10_state.md R34 and R35: IN_CAP and OUT_CAP are hardwired; no step changes them, nor FCB_BASE, and they read as
the parameters at every step. -/
def Obligations.CapacitiesAreHardwired : Prop :=
  (∀ (s t : State), step s = .next t → t.params = s.params) ∧
  (∀ (s : State), s.params.ok →
    (s.readReg .inCapLo).toNat + 256 * (s.readReg .inCapHi).toNat = s.params.inCap ∧
    (s.readReg .outCapLo).toNat + 256 * (s.readReg .outCapHi).toNat = s.params.outCap) ∧
  (∀ (s : State) (v : Byte), exec (.wr 0x00E v) s = .next s ∧ exec (.wr 0x00F v) s = .next s ∧
    exec (.wr 0x010 v) s = .next s ∧ exec (.wr 0x011 v) s = .next s)

/-- 10_state.md R33: TX_FLEN is 0 or 8 to min(263, OUT_CAP), after reset and after every step but the completion of a
tainted ENCODE, which may leave any value (70_reset_and_hazards.md R212, log 13). -/
def Obligations.FrameLengthStaysLegal : Prop :=
  State.reset.flenLegal ∧
  ∀ (s t : State), s.flenLegal →
    ¬(s.tainted = true ∧ (∃ p, s.pending = some p ∧ p.op = 0x04) ∧ (s.left = 0 ∨ s.inputs = [])) →
    step s = .next t → t.flenLegal

/-- 10_state.md R24: RESULT is written only by a completion step and by reset. -/
def Obligations.ResultWrittenOnlyByCompletionAndReset : Prop :=
  ∀ (s t : State), step s = .next t → t.result ≠ s.result →
    (∃ p, s.pending = some p ∧ t.pending = none ∧ (s.left = 0 ∨ s.inputs = []) ∧
      t.result ∈ (legalCodes (decodeCmd p.op)).map ResultCode.byte) ∨
    (∃ rest, s.inputs = .reset :: rest ∧ t.result = 0x00)

/-! ## Encoding -/

/-- Words written out from 30_encoding.md R82, R83 and R100 decode to what they stand for. -/
def Obligations.WrittenOutWordsDecode : Prop :=
  decode (.cmd8 0b00000001) = .ok .crcInit ∧ decode (.cmd8 0b00000010) = .ok .crcUpdate ∧
  decode (.cmd8 0b00000011) = .ok .decode ∧ decode (.cmd8 0b00000100) = .ok .encode ∧
  decode (.cmd8 0b10000000) = .ok (.illegal 0x80) ∧
  decode (.bus20 0b1_00000000000_00000011) = .ok (.wr 0x000 0x03) ∧
  decode (.bus20 0b0_00000000001_00000000) = .ok (.rd 0x001) ∧
  decode (.bus20 0xFFFFF) = .ok (.wr 0x7FF 0xFF)

/-- 30_encoding.md R82, R83, R100: the decoder and the encoder agree both ways. Every well-formed instruction is
decoded from its word, and every word that decodes is the word of a well-formed instruction. That a `rd` word with data
bits is rejected, the last clause and with it the second for `rd` words, is the MODEL'S CHOICE (log 9, DEDUCED). -/
def Obligations.DecodeAndEncodeAgree : Prop :=
  (∀ (i : Instr), i.wf = true → decode (encode i) = .ok i) ∧
  (∀ (w : CodeWord) (i : Instr), decode w = .ok i → i.wf = true ∧ encode i = w) ∧
  (∀ (w : BusWord), (∃ e, decode (.bus20 w) = .error e) ↔
    w.getLsbD 19 = false ∧ w.extractLsb' 0 8 ≠ 0#8)
end

