-- ==== Sys2Proof/Laws/Decode.lean ====
section
/-! SUPPORT. The fields of bus words, and what the decoder makes of the encoder's words. -/

namespace Sys2Proof

/-- The bits of a write word: the byte, the offset, then bit 19. -/
theorem busWrite_bit (off : Offset) (v : Byte) (i : Nat) :
    (busWrite off v).getLsbD i =
      if i < 8 then v.getLsbD i else if i - 8 < 11 then off.getLsbD (i - 8) else (1#1).getLsbD (i - 8 - 11) :=
  (BitVec.getLsbD_append (x := 1#1 ++ off) (y := v) (i := i)).trans (by rw [BitVec.getLsbD_append])

/-- The bits of a read word: eight zeros, the offset, then bit 19. -/
theorem busRead_bit (off : Offset) (i : Nat) :
    (busRead off).getLsbD i =
      if i < 8 then (0#8).getLsbD i else if i - 8 < 11 then off.getLsbD (i - 8) else (0#1).getLsbD (i - 8 - 11) :=
  (BitVec.getLsbD_append (x := 0#1 ++ off) (y := 0#8) (i := i)).trans (by rw [BitVec.getLsbD_append])

theorem busWrite_bit19 (off : Offset) (v : Byte) : (busWrite off v).getLsbD 19 = true := by
  rw [busWrite_bit]; rfl

theorem busWrite_offset (off : Offset) (v : Byte) : (busWrite off v).extractLsb' 8 11 = off := by
  ext i hi
  simp [busWrite_bit, hi]

theorem busWrite_byte (off : Offset) (v : Byte) : (busWrite off v).extractLsb' 0 8 = v := by
  ext i hi
  simp [busWrite_bit, hi]

theorem busRead_bit19 (off : Offset) : (busRead off).getLsbD 19 = false := by
  rw [busRead_bit]; rfl

theorem busRead_offset (off : Offset) : (busRead off).extractLsb' 8 11 = off := by
  ext i hi
  simp [busRead_bit, hi]

theorem busRead_byte (off : Offset) : (busRead off).extractLsb' 0 8 = 0 := by
  ext i hi
  simp [busRead_bit, hi]

theorem decodeBus_busWrite (off : Offset) (v : Byte) : decodeBus (busWrite off v) = .ok (.wr off v) := by
  rw [decodeBus, if_pos (busWrite_bit19 off v), busWrite_offset, busWrite_byte]

theorem decodeBus_busRead (off : Offset) : decodeBus (busRead off) = .ok (.rd off) := by
  rw [decodeBus, if_neg (by rw [busRead_bit19]; decide), if_pos (busRead_byte off), busRead_offset]

/-- A code that is none of the four decodes to an illegal command (30_encoding.md R83). -/
theorem decodeCmd_illegal {op : Byte} (h : commandCodes.contains op = false) : decodeCmd op = .illegal op := by
  simp [commandCodes] at h
  simp [decodeCmd, h]

/-- What a command code can decode to. -/
theorem decodeCmd_cases (op : Byte) :
    (op = 0x01 ∧ decodeCmd op = .crcInit) ∨ (op = 0x02 ∧ decodeCmd op = .crcUpdate) ∨
    (op = 0x03 ∧ decodeCmd op = .decode) ∨ (op = 0x04 ∧ decodeCmd op = .encode) ∨
    (commandCodes.contains op = false ∧ decodeCmd op = .illegal op) := by
  unfold decodeCmd
  split_ifs with h1 h2 h3 h4 <;> simp_all [commandCodes]

end Sys2Proof
end

