-- ==== Sys2Proof/Laws/State.lean ====
section
/-! SUPPORT. What each named update of State leaves in each field. -/

namespace Sys2Proof.Machine

@[simp] theorem State.store_result (s : State) (a : Nat) (v : Byte) : (s.store a v).result = s.result := rfl
@[simp] theorem State.store_crc (s : State) (a : Nat) (v : Byte) : (s.store a v).crc = s.crc := rfl
@[simp] theorem State.store_crcDin (s : State) (a : Nat) (v : Byte) : (s.store a v).crcDin = s.crcDin := rfl
@[simp] theorem State.store_rxAction (s : State) (a : Nat) (v : Byte) : (s.store a v).rxAction = s.rxAction := rfl
@[simp] theorem State.store_rxPlen (s : State) (a : Nat) (v : Byte) : (s.store a v).rxPlen = s.rxPlen := rfl
@[simp] theorem State.store_txAction (s : State) (a : Nat) (v : Byte) : (s.store a v).txAction = s.txAction := rfl
@[simp] theorem State.store_inLen (s : State) (a : Nat) (v : Byte) : (s.store a v).inLen = s.inLen := rfl
@[simp] theorem State.store_txPlen (s : State) (a : Nat) (v : Byte) : (s.store a v).txPlen = s.txPlen := rfl
@[simp] theorem State.store_txFlen (s : State) (a : Nat) (v : Byte) : (s.store a v).txFlen = s.txFlen := rfl
@[simp] theorem State.store_params (s : State) (a : Nat) (v : Byte) : (s.store a v).params = s.params := rfl
@[simp] theorem State.store_mem (s : State) (a : Nat) (v : Byte) : (s.store a v).mem = Memory.write s.mem a v := rfl
@[simp] theorem State.store_pending (s : State) (a : Nat) (v : Byte) : (s.store a v).pending = s.pending := rfl
@[simp] theorem State.store_epoch (s : State) (a : Nat) (v : Byte) : (s.store a v).epoch = s.epoch := rfl
@[simp] theorem State.store_draws (s : State) (a : Nat) (v : Byte) : (s.store a v).draws = s.draws := rfl
@[simp] theorem State.store_left (s : State) (a : Nat) (v : Byte) : (s.store a v).left = s.left := rfl
@[simp] theorem State.store_latencies (s : State) (a : Nat) (v : Byte) : (s.store a v).latencies = s.latencies := rfl
@[simp] theorem State.store_answer (s : State) (a : Nat) (v : Byte) : (s.store a v).answer = s.answer := rfl
@[simp] theorem State.store_inputs (s : State) (a : Nat) (v : Byte) : (s.store a v).inputs = s.inputs := rfl

@[simp] theorem State.storeBytes_result (s : State) (a : Nat) (vs : List Byte) : (s.storeBytes a vs).result = s.result := rfl
@[simp] theorem State.storeBytes_crc (s : State) (a : Nat) (vs : List Byte) : (s.storeBytes a vs).crc = s.crc := rfl
@[simp] theorem State.storeBytes_crcDin (s : State) (a : Nat) (vs : List Byte) : (s.storeBytes a vs).crcDin = s.crcDin := rfl
@[simp] theorem State.storeBytes_rxAction (s : State) (a : Nat) (vs : List Byte) : (s.storeBytes a vs).rxAction = s.rxAction := rfl
@[simp] theorem State.storeBytes_rxPlen (s : State) (a : Nat) (vs : List Byte) : (s.storeBytes a vs).rxPlen = s.rxPlen := rfl
@[simp] theorem State.storeBytes_txAction (s : State) (a : Nat) (vs : List Byte) : (s.storeBytes a vs).txAction = s.txAction := rfl
@[simp] theorem State.storeBytes_inLen (s : State) (a : Nat) (vs : List Byte) : (s.storeBytes a vs).inLen = s.inLen := rfl
@[simp] theorem State.storeBytes_txPlen (s : State) (a : Nat) (vs : List Byte) : (s.storeBytes a vs).txPlen = s.txPlen := rfl
@[simp] theorem State.storeBytes_txFlen (s : State) (a : Nat) (vs : List Byte) : (s.storeBytes a vs).txFlen = s.txFlen := rfl
@[simp] theorem State.storeBytes_params (s : State) (a : Nat) (vs : List Byte) : (s.storeBytes a vs).params = s.params := rfl
@[simp] theorem State.storeBytes_mem (s : State) (a : Nat) (vs : List Byte) : (s.storeBytes a vs).mem = Memory.writeList s.mem a vs := rfl
@[simp] theorem State.storeBytes_pending (s : State) (a : Nat) (vs : List Byte) : (s.storeBytes a vs).pending = s.pending := rfl
@[simp] theorem State.storeBytes_epoch (s : State) (a : Nat) (vs : List Byte) : (s.storeBytes a vs).epoch = s.epoch := rfl
@[simp] theorem State.storeBytes_draws (s : State) (a : Nat) (vs : List Byte) : (s.storeBytes a vs).draws = s.draws := rfl
@[simp] theorem State.storeBytes_left (s : State) (a : Nat) (vs : List Byte) : (s.storeBytes a vs).left = s.left := rfl
@[simp] theorem State.storeBytes_latencies (s : State) (a : Nat) (vs : List Byte) : (s.storeBytes a vs).latencies = s.latencies := rfl
@[simp] theorem State.storeBytes_answer (s : State) (a : Nat) (vs : List Byte) : (s.storeBytes a vs).answer = s.answer := rfl
@[simp] theorem State.storeBytes_inputs (s : State) (a : Nat) (vs : List Byte) : (s.storeBytes a vs).inputs = s.inputs := rfl

@[simp] theorem State.drawn_result (s : State) : (s.drawn).result = s.result := rfl
@[simp] theorem State.drawn_crc (s : State) : (s.drawn).crc = s.crc := rfl
@[simp] theorem State.drawn_crcDin (s : State) : (s.drawn).crcDin = s.crcDin := rfl
@[simp] theorem State.drawn_rxAction (s : State) : (s.drawn).rxAction = s.rxAction := rfl
@[simp] theorem State.drawn_rxPlen (s : State) : (s.drawn).rxPlen = s.rxPlen := rfl
@[simp] theorem State.drawn_txAction (s : State) : (s.drawn).txAction = s.txAction := rfl
@[simp] theorem State.drawn_inLen (s : State) : (s.drawn).inLen = s.inLen := rfl
@[simp] theorem State.drawn_txPlen (s : State) : (s.drawn).txPlen = s.txPlen := rfl
@[simp] theorem State.drawn_txFlen (s : State) : (s.drawn).txFlen = s.txFlen := rfl
@[simp] theorem State.drawn_params (s : State) : (s.drawn).params = s.params := rfl
@[simp] theorem State.drawn_mem (s : State) : (s.drawn).mem = s.mem := rfl
@[simp] theorem State.drawn_pending (s : State) : (s.drawn).pending = s.pending := rfl
@[simp] theorem State.drawn_epoch (s : State) : (s.drawn).epoch = s.epoch := rfl
@[simp] theorem State.drawn_draws (s : State) : (s.drawn).draws = s.draws + 1 := rfl
@[simp] theorem State.drawn_left (s : State) : (s.drawn).left = s.left := rfl
@[simp] theorem State.drawn_latencies (s : State) : (s.drawn).latencies = s.latencies := rfl
@[simp] theorem State.drawn_answer (s : State) : (s.drawn).answer = s.answer := rfl
@[simp] theorem State.drawn_inputs (s : State) : (s.drawn).inputs = s.inputs := rfl

@[simp] theorem State.complete_result (s : State) (c : ResultCode) : (s.complete c).result = c.byte := rfl
@[simp] theorem State.complete_crc (s : State) (c : ResultCode) : (s.complete c).crc = s.crc := rfl
@[simp] theorem State.complete_crcDin (s : State) (c : ResultCode) : (s.complete c).crcDin = s.crcDin := rfl
@[simp] theorem State.complete_rxAction (s : State) (c : ResultCode) : (s.complete c).rxAction = s.rxAction := rfl
@[simp] theorem State.complete_rxPlen (s : State) (c : ResultCode) : (s.complete c).rxPlen = s.rxPlen := rfl
@[simp] theorem State.complete_txAction (s : State) (c : ResultCode) : (s.complete c).txAction = s.txAction := rfl
@[simp] theorem State.complete_inLen (s : State) (c : ResultCode) : (s.complete c).inLen = s.inLen := rfl
@[simp] theorem State.complete_txPlen (s : State) (c : ResultCode) : (s.complete c).txPlen = s.txPlen := rfl
@[simp] theorem State.complete_txFlen (s : State) (c : ResultCode) : (s.complete c).txFlen = s.txFlen := rfl
@[simp] theorem State.complete_params (s : State) (c : ResultCode) : (s.complete c).params = s.params := rfl
@[simp] theorem State.complete_mem (s : State) (c : ResultCode) : (s.complete c).mem = s.mem := rfl
@[simp] theorem State.complete_pending (s : State) (c : ResultCode) : (s.complete c).pending = none := rfl
@[simp] theorem State.complete_epoch (s : State) (c : ResultCode) : (s.complete c).epoch = s.epoch := rfl
@[simp] theorem State.complete_draws (s : State) (c : ResultCode) : (s.complete c).draws = s.draws := rfl
@[simp] theorem State.complete_left (s : State) (c : ResultCode) : (s.complete c).left = s.left := rfl
@[simp] theorem State.complete_latencies (s : State) (c : ResultCode) : (s.complete c).latencies = s.latencies := rfl
@[simp] theorem State.complete_answer (s : State) (c : ResultCode) : (s.complete c).answer = s.answer := rfl
@[simp] theorem State.complete_inputs (s : State) (c : ResultCode) : (s.complete c).inputs = s.inputs := rfl

@[simp] theorem State.completeFreely_result (s : State) (cs : List ResultCode) : (s.completeFreely cs).result = (pickCode cs (Config.freeChoice s.draws)).byte := rfl
@[simp] theorem State.completeFreely_crc (s : State) (cs : List ResultCode) : (s.completeFreely cs).crc = s.crc := rfl
@[simp] theorem State.completeFreely_crcDin (s : State) (cs : List ResultCode) : (s.completeFreely cs).crcDin = s.crcDin := rfl
@[simp] theorem State.completeFreely_rxAction (s : State) (cs : List ResultCode) : (s.completeFreely cs).rxAction = s.rxAction := rfl
@[simp] theorem State.completeFreely_rxPlen (s : State) (cs : List ResultCode) : (s.completeFreely cs).rxPlen = s.rxPlen := rfl
@[simp] theorem State.completeFreely_txAction (s : State) (cs : List ResultCode) : (s.completeFreely cs).txAction = s.txAction := rfl
@[simp] theorem State.completeFreely_inLen (s : State) (cs : List ResultCode) : (s.completeFreely cs).inLen = s.inLen := rfl
@[simp] theorem State.completeFreely_txPlen (s : State) (cs : List ResultCode) : (s.completeFreely cs).txPlen = s.txPlen := rfl
@[simp] theorem State.completeFreely_txFlen (s : State) (cs : List ResultCode) : (s.completeFreely cs).txFlen = s.txFlen := rfl
@[simp] theorem State.completeFreely_params (s : State) (cs : List ResultCode) : (s.completeFreely cs).params = s.params := rfl
@[simp] theorem State.completeFreely_mem (s : State) (cs : List ResultCode) : (s.completeFreely cs).mem = s.mem := rfl
@[simp] theorem State.completeFreely_pending (s : State) (cs : List ResultCode) : (s.completeFreely cs).pending = none := rfl
@[simp] theorem State.completeFreely_epoch (s : State) (cs : List ResultCode) : (s.completeFreely cs).epoch = s.epoch := rfl
@[simp] theorem State.completeFreely_draws (s : State) (cs : List ResultCode) : (s.completeFreely cs).draws = s.draws + 1 := rfl
@[simp] theorem State.completeFreely_left (s : State) (cs : List ResultCode) : (s.completeFreely cs).left = s.left := rfl
@[simp] theorem State.completeFreely_latencies (s : State) (cs : List ResultCode) : (s.completeFreely cs).latencies = s.latencies := rfl
@[simp] theorem State.completeFreely_answer (s : State) (cs : List ResultCode) : (s.completeFreely cs).answer = s.answer := rfl
@[simp] theorem State.completeFreely_inputs (s : State) (cs : List ResultCode) : (s.completeFreely cs).inputs = s.inputs := rfl

@[simp] theorem State.start_result (s : State) (v : Byte) : (s.start v).result = s.result := rfl
@[simp] theorem State.start_crc (s : State) (v : Byte) : (s.start v).crc = s.crc := rfl
@[simp] theorem State.start_crcDin (s : State) (v : Byte) : (s.start v).crcDin = s.crcDin := rfl
@[simp] theorem State.start_rxAction (s : State) (v : Byte) : (s.start v).rxAction = s.rxAction := rfl
@[simp] theorem State.start_rxPlen (s : State) (v : Byte) : (s.start v).rxPlen = s.rxPlen := rfl
@[simp] theorem State.start_txAction (s : State) (v : Byte) : (s.start v).txAction = s.txAction := rfl
@[simp] theorem State.start_inLen (s : State) (v : Byte) : (s.start v).inLen = s.inLen := rfl
@[simp] theorem State.start_txPlen (s : State) (v : Byte) : (s.start v).txPlen = s.txPlen := rfl
@[simp] theorem State.start_txFlen (s : State) (v : Byte) : (s.start v).txFlen = s.txFlen := rfl
@[simp] theorem State.start_params (s : State) (v : Byte) : (s.start v).params = s.params := rfl
@[simp] theorem State.start_mem (s : State) (v : Byte) : (s.start v).mem = s.mem := rfl
@[simp] theorem State.start_pending (s : State) (v : Byte) : (s.start v).pending = some ⟨v, false⟩ := rfl
@[simp] theorem State.start_epoch (s : State) (v : Byte) : (s.start v).epoch = s.epoch := rfl
@[simp] theorem State.start_draws (s : State) (v : Byte) : (s.start v).draws = if s.latencies.isEmpty then s.draws + 1 else s.draws := rfl
@[simp] theorem State.start_left (s : State) (v : Byte) : (s.start v).left = s.nextLatency := rfl
@[simp] theorem State.start_latencies (s : State) (v : Byte) : (s.start v).latencies = s.latencies.tail := rfl
@[simp] theorem State.start_answer (s : State) (v : Byte) : (s.start v).answer = s.answer := rfl
@[simp] theorem State.start_inputs (s : State) (v : Byte) : (s.start v).inputs = s.inputs := rfl

@[simp] theorem State.taint_result (s : State) : (s.taint).result = s.result := rfl
@[simp] theorem State.taint_crc (s : State) : (s.taint).crc = s.crc := rfl
@[simp] theorem State.taint_crcDin (s : State) : (s.taint).crcDin = s.crcDin := rfl
@[simp] theorem State.taint_rxAction (s : State) : (s.taint).rxAction = s.rxAction := rfl
@[simp] theorem State.taint_rxPlen (s : State) : (s.taint).rxPlen = s.rxPlen := rfl
@[simp] theorem State.taint_txAction (s : State) : (s.taint).txAction = s.txAction := rfl
@[simp] theorem State.taint_inLen (s : State) : (s.taint).inLen = s.inLen := rfl
@[simp] theorem State.taint_txPlen (s : State) : (s.taint).txPlen = s.txPlen := rfl
@[simp] theorem State.taint_txFlen (s : State) : (s.taint).txFlen = s.txFlen := rfl
@[simp] theorem State.taint_params (s : State) : (s.taint).params = s.params := rfl
@[simp] theorem State.taint_mem (s : State) : (s.taint).mem = s.mem := rfl
@[simp] theorem State.taint_pending (s : State) : (s.taint).pending = s.pending.map fun p => { p with tainted := true } := rfl
@[simp] theorem State.taint_epoch (s : State) : (s.taint).epoch = s.epoch := rfl
@[simp] theorem State.taint_draws (s : State) : (s.taint).draws = s.draws := rfl
@[simp] theorem State.taint_left (s : State) : (s.taint).left = s.left := rfl
@[simp] theorem State.taint_latencies (s : State) : (s.taint).latencies = s.latencies := rfl
@[simp] theorem State.taint_answer (s : State) : (s.taint).answer = s.answer := rfl
@[simp] theorem State.taint_inputs (s : State) : (s.taint).inputs = s.inputs := rfl

@[simp] theorem State.applyReset_result (s : State) : (s.applyReset).result = State.reset.result := rfl
@[simp] theorem State.applyReset_crc (s : State) : (s.applyReset).crc = State.reset.crc := rfl
@[simp] theorem State.applyReset_crcDin (s : State) : (s.applyReset).crcDin = State.reset.crcDin := rfl
@[simp] theorem State.applyReset_rxAction (s : State) : (s.applyReset).rxAction = State.reset.rxAction := rfl
@[simp] theorem State.applyReset_rxPlen (s : State) : (s.applyReset).rxPlen = State.reset.rxPlen := rfl
@[simp] theorem State.applyReset_txAction (s : State) : (s.applyReset).txAction = State.reset.txAction := rfl
@[simp] theorem State.applyReset_inLen (s : State) : (s.applyReset).inLen = State.reset.inLen := rfl
@[simp] theorem State.applyReset_txPlen (s : State) : (s.applyReset).txPlen = State.reset.txPlen := rfl
@[simp] theorem State.applyReset_txFlen (s : State) : (s.applyReset).txFlen = State.reset.txFlen := rfl
@[simp] theorem State.applyReset_params (s : State) : (s.applyReset).params = s.params := rfl
@[simp] theorem State.applyReset_mem (s : State) : (s.applyReset).mem = State.reset.mem := rfl
@[simp] theorem State.applyReset_pending (s : State) : (s.applyReset).pending = State.reset.pending := rfl
@[simp] theorem State.applyReset_epoch (s : State) : (s.applyReset).epoch = s.draws := rfl
@[simp] theorem State.applyReset_draws (s : State) : (s.applyReset).draws = s.draws + 1 := rfl
@[simp] theorem State.applyReset_left (s : State) : (s.applyReset).left = State.reset.left := rfl
@[simp] theorem State.applyReset_latencies (s : State) : (s.applyReset).latencies = s.latencies := rfl
@[simp] theorem State.applyReset_answer (s : State) : (s.applyReset).answer = s.answer := rfl
@[simp] theorem State.applyReset_inputs (s : State) : (s.applyReset).inputs = s.inputs := rfl

@[simp] theorem State.withInputs_result (s : State) (r : List Input) : (s.withInputs r).result = s.result := rfl
@[simp] theorem State.withInputs_crc (s : State) (r : List Input) : (s.withInputs r).crc = s.crc := rfl
@[simp] theorem State.withInputs_crcDin (s : State) (r : List Input) : (s.withInputs r).crcDin = s.crcDin := rfl
@[simp] theorem State.withInputs_rxAction (s : State) (r : List Input) : (s.withInputs r).rxAction = s.rxAction := rfl
@[simp] theorem State.withInputs_rxPlen (s : State) (r : List Input) : (s.withInputs r).rxPlen = s.rxPlen := rfl
@[simp] theorem State.withInputs_txAction (s : State) (r : List Input) : (s.withInputs r).txAction = s.txAction := rfl
@[simp] theorem State.withInputs_inLen (s : State) (r : List Input) : (s.withInputs r).inLen = s.inLen := rfl
@[simp] theorem State.withInputs_txPlen (s : State) (r : List Input) : (s.withInputs r).txPlen = s.txPlen := rfl
@[simp] theorem State.withInputs_txFlen (s : State) (r : List Input) : (s.withInputs r).txFlen = s.txFlen := rfl
@[simp] theorem State.withInputs_params (s : State) (r : List Input) : (s.withInputs r).params = s.params := rfl
@[simp] theorem State.withInputs_mem (s : State) (r : List Input) : (s.withInputs r).mem = s.mem := rfl
@[simp] theorem State.withInputs_pending (s : State) (r : List Input) : (s.withInputs r).pending = s.pending := rfl
@[simp] theorem State.withInputs_epoch (s : State) (r : List Input) : (s.withInputs r).epoch = s.epoch := rfl
@[simp] theorem State.withInputs_draws (s : State) (r : List Input) : (s.withInputs r).draws = s.draws := rfl
@[simp] theorem State.withInputs_left (s : State) (r : List Input) : (s.withInputs r).left = s.left := rfl
@[simp] theorem State.withInputs_latencies (s : State) (r : List Input) : (s.withInputs r).latencies = s.latencies := rfl
@[simp] theorem State.withInputs_answer (s : State) (r : List Input) : (s.withInputs r).answer = s.answer := rfl
@[simp] theorem State.withInputs_inputs (s : State) (r : List Input) : (s.withInputs r).inputs = r := rfl

@[simp] theorem State.atAccess_result (s : State) (r : List Input) : (s.atAccess r).result = s.result := rfl
@[simp] theorem State.atAccess_crc (s : State) (r : List Input) : (s.atAccess r).crc = s.crc := rfl
@[simp] theorem State.atAccess_crcDin (s : State) (r : List Input) : (s.atAccess r).crcDin = s.crcDin := rfl
@[simp] theorem State.atAccess_rxAction (s : State) (r : List Input) : (s.atAccess r).rxAction = s.rxAction := rfl
@[simp] theorem State.atAccess_rxPlen (s : State) (r : List Input) : (s.atAccess r).rxPlen = s.rxPlen := rfl
@[simp] theorem State.atAccess_txAction (s : State) (r : List Input) : (s.atAccess r).txAction = s.txAction := rfl
@[simp] theorem State.atAccess_inLen (s : State) (r : List Input) : (s.atAccess r).inLen = s.inLen := rfl
@[simp] theorem State.atAccess_txPlen (s : State) (r : List Input) : (s.atAccess r).txPlen = s.txPlen := rfl
@[simp] theorem State.atAccess_txFlen (s : State) (r : List Input) : (s.atAccess r).txFlen = s.txFlen := rfl
@[simp] theorem State.atAccess_params (s : State) (r : List Input) : (s.atAccess r).params = s.params := rfl
@[simp] theorem State.atAccess_mem (s : State) (r : List Input) : (s.atAccess r).mem = s.mem := rfl
@[simp] theorem State.atAccess_pending (s : State) (r : List Input) : (s.atAccess r).pending = s.pending := rfl
@[simp] theorem State.atAccess_epoch (s : State) (r : List Input) : (s.atAccess r).epoch = s.epoch := rfl
@[simp] theorem State.atAccess_draws (s : State) (r : List Input) : (s.atAccess r).draws = s.draws := rfl
@[simp] theorem State.atAccess_left (s : State) (r : List Input) : (s.atAccess r).left = s.left - 1 := rfl
@[simp] theorem State.atAccess_latencies (s : State) (r : List Input) : (s.atAccess r).latencies = s.latencies := rfl
@[simp] theorem State.atAccess_answer (s : State) (r : List Input) : (s.atAccess r).answer = s.answer := rfl
@[simp] theorem State.atAccess_inputs (s : State) (r : List Input) : (s.atAccess r).inputs = r := rfl

end Sys2Proof.Machine
end

