-- ==== Sys2Proof/Laws/Memory.lean ====
section
/-! SUPPORT. The laws of buffer memory: read after write, and the canonical form. -/

namespace Sys2Proof.Machine

/-- Read after write, at any two offsets. -/
theorem Memory.lookup_write (m : Memory) (a b : Nat) (v : Byte) :
    Memory.lookup (Memory.write m a v) b = if a = b then some v else Memory.lookup m b := by
  induction m with
  | nil => simp [Memory.write, Memory.lookup]
  | cons c m ih =>
    obtain ⟨k, w⟩ := c
    rw [Memory.write]
    by_cases h1 : a < k
    · simp [h1, Memory.lookup]
    · by_cases h2 : a = k
      · subst h2
        by_cases h : a = b <;> simp [Memory.lookup, h]
      · rw [if_neg h1, if_neg h2]
        by_cases h : k = b
        · have : a ≠ b := fun e => h2 (e.trans h.symm)
          simp [Memory.lookup, h, this]
        · simp [Memory.lookup, h, ih]

@[simp] theorem Memory.lookup_write_same (m : Memory) (a : Nat) (v : Byte) :
    Memory.lookup (Memory.write m a v) a = some v := by simp [Memory.lookup_write]

theorem Memory.lookup_write_other (m : Memory) {a b : Nat} (v : Byte) (h : b ≠ a) :
    Memory.lookup (Memory.write m a v) b = Memory.lookup m b := by
  simp [Memory.lookup_write, Ne.symm h]

/-- Read after a write of consecutive bytes: inside the range the byte written, outside what was there. -/
theorem Memory.lookup_writeList (m : Memory) (a b : Nat) (vs : List Byte) :
    Memory.lookup (Memory.writeList m a vs) b =
      if a ≤ b ∧ b < a + vs.length then vs[b - a]? else Memory.lookup m b := by
  induction vs generalizing m a with
  | nil => simp [Memory.writeList]
  | cons v vs ih =>
    simp only [Memory.writeList, ih, Memory.lookup_write, List.length_cons]
    by_cases hab : a = b
    · subst hab; simp
    · by_cases h : a ≤ b ∧ b < a + (vs.length + 1)
      · obtain ⟨d, rfl⟩ : ∃ d, b = a + 1 + d := ⟨b - (a + 1), by omega⟩
        rw [if_pos (by omega), if_pos h, show a + 1 + d - a = d + 1 by omega]
        simp
      · rw [if_neg (by omega), if_neg h, if_neg hab]

/-- The keys after a write: the old ones, and the one written. -/
theorem Memory.key_of_mem_write {m : Memory} {a : Nat} {v : Byte} {c : Host.Cell}
    (h : c ∈ Memory.write m a v) : c.1 = a ∨ c ∈ m := by
  induction m with
  | nil => simp [Memory.write] at h; simp [h]
  | cons d m ih =>
    obtain ⟨k, w⟩ := d
    simp only [Memory.write] at h
    split_ifs at h with h1 h2
    · simp only [List.mem_cons] at h ⊢
      rcases h with rfl | h | h <;> simp [*]
    · simp only [List.mem_cons] at h ⊢
      rcases h with rfl | h <;> simp [*]
    · simp only [List.mem_cons] at h ⊢
      rcases h with rfl | h
      · simp
      · rcases ih h with h | h <;> simp [h]

/-- The keys after a write of consecutive bytes. -/
theorem Memory.key_of_mem_writeList {m : Memory} {a : Nat} {vs : List Byte} {c : Host.Cell}
    (h : c ∈ Memory.writeList m a vs) : (a ≤ c.1 ∧ c.1 < a + vs.length) ∨ c ∈ m := by
  induction vs generalizing m a with
  | nil => exact .inr h
  | cons v vs ih =>
    simp only [Memory.writeList] at h
    rcases ih h with h | h
    · left; simp only [List.length_cons]; omega
    · rcases Memory.key_of_mem_write h with h | h
      · left; simp only [List.length_cons]; omega
      · exact .inr h

/-- A write keeps the canonical form. -/
theorem Memory.write_wf {m : Memory} (h : Memory.wf m) (a : Nat) (v : Byte) :
    Memory.wf (Memory.write m a v) := by
  induction m with
  | nil => simp [Memory.write]
  | cons c m ih =>
    obtain ⟨k, w⟩ := c
    simp only [Memory.wf, List.pairwise_cons] at h
    simp only [Memory.write]
    split_ifs with h1 h2
    · simp only [Memory.wf, List.pairwise_cons, List.mem_cons]
      refine ⟨?_, h⟩
      rintro d (rfl | hd)
      · exact h1
      · exact h1.trans (h.1 d hd)
    · simp only [Memory.wf, List.pairwise_cons]
      exact ⟨fun d hd => h2 ▸ h.1 d hd, h.2⟩
    · simp only [Memory.wf, List.pairwise_cons]
      refine ⟨fun d hd => ?_, ih h.2⟩
      rcases Memory.key_of_mem_write hd with e | hd
      · simp only [e]; omega
      · exact h.1 d hd

/-- A write of consecutive bytes keeps the canonical form. -/
theorem Memory.writeList_wf {m : Memory} (h : Memory.wf m) (a : Nat) (vs : List Byte) :
    Memory.wf (Memory.writeList m a vs) := by
  induction vs generalizing m a with
  | nil => exact h
  | cons v vs ih => exact ih (Memory.write_wf h a v) (a + 1)

theorem Memory.reset_wf : Memory.wf State.reset.mem := List.Pairwise.nil

/-- An offset below every key is not listed. -/
theorem Memory.lookup_eq_none {m : Memory} {a : Nat} (h : ∀ c ∈ m, a < c.1) :
    Memory.lookup m a = none := by
  induction m with
  | nil => rfl
  | cons c m ih =>
    obtain ⟨k, w⟩ := c
    have hk : a < k := h (k, w) (by simp)
    simp only [Memory.lookup, if_neg (show k ≠ a by omega)]
    exact ih fun c hc => h c (by simp [hc])

/-- Equal memories are equal data: two canonical lists that hold the same bytes are the same list. -/
theorem Memory.ext_of_lookup {m n : Memory} (hm : Memory.wf m) (hn : Memory.wf n)
    (h : ∀ a, Memory.lookup m a = Memory.lookup n a) : m = n := by
  induction m generalizing n with
  | nil =>
    cases n with
    | nil => rfl
    | cons c n => simpa [Memory.lookup] using h c.1
  | cons c m ih =>
    cases n with
    | nil => simpa [Memory.lookup] using h c.1
    | cons d n =>
      obtain ⟨k, w⟩ := c
      obtain ⟨l, x⟩ := d
      simp only [Memory.wf, List.pairwise_cons] at hm hn
      have hkl : k = l := by
        rcases Nat.lt_trichotomy k l with hlt | heq | hlt
        · have := h k
          rw [Memory.lookup_eq_none (m := (l, x) :: n) (by
            intro c hc
            rcases List.mem_cons.1 hc with rfl | hc
            · exact hlt
            · exact hlt.trans (hn.1 c hc))] at this
          simp [Memory.lookup] at this
        · exact heq
        · have := h l
          rw [Memory.lookup_eq_none (m := (k, w) :: m) (by
            intro c hc
            rcases List.mem_cons.1 hc with rfl | hc
            · exact hlt
            · exact hlt.trans (hm.1 c hc))] at this
          simp [Memory.lookup] at this
      subst hkl
      have hwx : w = x := by simpa [Memory.lookup] using h k
      subst hwx
      refine congrArg _ (ih hm.2 hn.2 fun a => ?_)
      by_cases hak : k = a
      · subst hak
        rw [Memory.lookup_eq_none hm.1, Memory.lookup_eq_none hn.1]
      · simpa [Memory.lookup, hak] using h a

/-! ## Buffer bytes of a state -/

theorem State.byteAt_store (s : State) (a b : Nat) (v : Byte) :
    (s.store a v).byteAt b = if a = b then v else s.byteAt b := by
  simp only [State.byteAt, State.store, Memory.lookup_write]
  split_ifs <;> rfl

@[simp] theorem State.byteAt_store_same (s : State) (a : Nat) (v : Byte) : (s.store a v).byteAt a = v := by
  simp [State.byteAt_store]

theorem State.byteAt_store_other (s : State) {a b : Nat} (v : Byte) (h : b ≠ a) :
    (s.store a v).byteAt b = s.byteAt b := by
  simp [State.byteAt_store, Ne.symm h]

theorem State.byteAt_storeBytes (s : State) (a b : Nat) (vs : List Byte) :
    (s.storeBytes a vs).byteAt b =
      if a ≤ b ∧ b < a + vs.length then vs.getD (b - a) 0 else s.byteAt b := by
  simp only [State.byteAt, State.storeBytes, Memory.lookup_writeList]
  split_ifs with h
  · have hb : b - a < vs.length := by omega
    simp [List.getD_eq_getElem?_getD, List.getElem?_eq_getElem hb]
  · rfl

/-- A buffer byte depends on memory and on the draw that filled it, and on nothing else. -/
theorem State.byteAt_congr {s t : State} (hm : t.mem = s.mem) (he : t.epoch = s.epoch) (a : Nat) :
    t.byteAt a = s.byteAt a := by
  simp [State.byteAt, hm, he]

@[simp] theorem State.byteAt_complete (s : State) (c : ResultCode) (a : Nat) :
    (s.complete c).byteAt a = s.byteAt a := rfl

@[simp] theorem State.byteAt_completeFreely (s : State) (cs : List ResultCode) (a : Nat) :
    (s.completeFreely cs).byteAt a = s.byteAt a := rfl

@[simp] theorem State.byteAt_taint (s : State) (a : Nat) : s.taint.byteAt a = s.byteAt a := rfl

@[simp] theorem State.byteAt_start (s : State) (v : Byte) (a : Nat) : (s.start v).byteAt a = s.byteAt a := rfl

@[simp] theorem State.byteAt_drawn (s : State) (a : Nat) : s.drawn.byteAt a = s.byteAt a := rfl

/-- After reset every buffer byte is the free value of the draw that reset took (70_reset_and_hazards.md R201). -/
@[simp] theorem State.byteAt_applyReset (s : State) (a : Nat) :
    s.applyReset.byteAt a = Config.freeByte s.draws a := rfl

theorem State.length_bytesAt (s : State) (a k : Nat) : (s.bytesAt a k).length = k := by
  simp [State.bytesAt]

end Sys2Proof.Machine
end

