-- ==== Sys2Proof/Laws/Access.lean ====
section
/-! SUPPORT. What each window offset names, and everything a host access can do. -/

namespace Sys2Proof.Machine

/-! ## The map of the window (20_memory.md R51, R52) -/

/-- A register stands at its own offset, and no other offset has it. -/
theorem regAt_eq_some {off : Nat} {r : Reg} : regAt off = some r ↔ off = regOffset r := by
  constructor
  · intro h
    obtain ⟨row, hf, hr⟩ := Option.map_eq_some_iff.1 h
    have hm := List.mem_of_find?_eq_some hf
    have ho : row.offset = off := by simpa using List.find?_some hf
    subst hr ho
    revert row
    decide
  · rintro rfl
    cases r <;> rfl

/-- Beyond the map there is no register. -/
theorem regAt_eq_none {off : Nat} (h : 0x012 ≤ off) : regAt off = none := by
  cases hr : regAt off with
  | none => rfl
  | some r =>
    have := regAt_eq_some.1 hr
    have hle : regOffset r ≤ 0x011 := by cases r <;> decide
    omega

/-- Every offset of the map has a register. -/
theorem target_register {p : Params} {off : Nat} {r : Reg} : target p off = .reg r ↔ off = regOffset r := by
  rw [← regAt_eq_some]
  unfold target
  split
  · rename_i q hq
    simp [hq]
  · rename_i hq
    simp only [hq]
    split_ifs <;> simp

theorem target_plBuf {p : Params} {off i : Nat} :
    target p off = .plBuf i ↔ i < plCap ∧ off = plBase + i := by
  unfold target
  split
  · rename_i r hr
    have := regAt_eq_some.1 hr
    have hle : regOffset r ≤ 0x011 := by cases r <;> decide
    simp only [plBase, plCap, reduceCtorEq, false_iff]
    omega
  · split_ifs with h1 h2 h3 <;> simp only [Target.plBuf.injEq, false_iff] <;>
      simp only [plBase, plCap, inBase, outBase] at * <;> omega

theorem target_inBuf {p : Params} {off i : Nat} :
    target p off = .inBuf i ↔ i < p.inCap ∧ off = inBase + i := by
  unfold target
  split
  · rename_i r hr
    have := regAt_eq_some.1 hr
    have hle : regOffset r ≤ 0x011 := by cases r <;> decide
    simp only [inBase, reduceCtorEq, false_iff]
    omega
  · split_ifs with h1 h2 h3 <;> simp only [Target.inBuf.injEq, false_iff] <;>
      simp only [plBase, plCap, inBase, outBase] at * <;> omega

/-- OUT_BUF's offsets, at capacities in their range (00_scope.md R10). -/
theorem target_outBuf {p : Params} (hp : p.ok) {off i : Nat} :
    target p off = .outBuf i ↔ i < p.outCap ∧ off = outBase + i := by
  unfold target
  split
  · rename_i r hr
    have := regAt_eq_some.1 hr
    have hle : regOffset r ≤ 0x011 := by cases r <;> decide
    simp only [outBase, reduceCtorEq, false_iff]
    omega
  · split_ifs with h1 h2 h3 <;> simp only [Target.outBuf.injEq, false_iff] <;>
      simp only [plBase, plCap, inBase, outBase, Params.ok] at * <;> omega

theorem outBuf_range {p : Params} {off i : Nat} (h : target p off = .outBuf i) :
    i < p.outCap ∧ off = outBase + i := by
  unfold target at h
  split at h
  · simp at h
  · split_ifs at h with h1 h2 h3
    simp only [Target.outBuf.injEq] at h
    omega

/-- The reserved offsets are those that are neither a register nor a buffer byte (20_memory.md R51). -/
theorem target_reserved {p : Params} {off : Nat} :
    target p off = .reserved ↔ 0x012 ≤ off ∧ ¬(plBase ≤ off ∧ off < plBase + plCap) ∧
      ¬(inBase ≤ off ∧ off < inBase + p.inCap) ∧ ¬(outBase ≤ off ∧ off < outBase + p.outCap) := by
  constructor
  · intro h
    unfold target at h
    split at h
    · simp at h
    · rename_i hn
      refine ⟨?_, ?_⟩
      · by_contra hlt
        have : off < 18 := by omega
        interval_cases off <;> simp [regAt, regMap] at hn
      · split_ifs at h with h1 h2 h3
        exact ⟨h1, h2, h3⟩
  · rintro ⟨h, h1, h2, h3⟩
    simp [target, regAt_eq_none h, h1, h2, h3]

/-- The register at an offset of the map, in a state. -/
theorem State.targetOf_reg {s : State} {off : Offset} (r : Reg) (h : off.toNat = regOffset r) :
    s.targetOf off = .reg r := target_register.2 h

/-- At any offset but its own, a register is not what a state's window names. -/
theorem State.targetOf_ne_reg {s : State} {off own : Offset} {r : Reg} (ho : own.toNat = regOffset r)
    (h : off ≠ own) : s.targetOf off ≠ .reg r :=
  fun e => h (BitVec.eq_of_toNat_eq ((target_register.1 e).trans ho.symm))

/-! ## Named updates -/

/-- A register write changes its own byte and nothing else: what stays, whatever the register. -/
theorem State.writeReg_frame (s : State) (v : Byte) (r : Reg) :
    s.writeReg v r = { s with
      crcDin := (s.writeReg v r).crcDin, txAction := (s.writeReg v r).txAction,
      inLen := (s.writeReg v r).inLen, txPlen := (s.writeReg v r).txPlen } := by
  cases r <;> rfl

/-- A register whose access is not RW ignores writes (10_state.md section 2). -/
theorem State.writeReg_readOnly (s : State) (v : Byte) {r : Reg} (h : regAccess r ≠ .rw) :
    s.writeReg v r = s := by
  cases r <;> first | rfl | exact absurd rfl h

/-- A register whose access is RW reads back what was written. -/
theorem State.readReg_writeReg (s : State) (v : Byte) {r : Reg} (h : regAccess r = .rw) :
    (s.writeReg v r).readReg r = v := by
  cases r <;> first | rfl | exact absurd h (by decide)

/-- A write of a target changes RW registers and memory only. -/
theorem State.writeTarget_frame (s : State) (v : Byte) (t : Target) :
    s.writeTarget v t = { s with
      crcDin := (s.writeTarget v t).crcDin, txAction := (s.writeTarget v t).txAction,
      inLen := (s.writeTarget v t).inLen, txPlen := (s.writeTarget v t).txPlen,
      mem := (s.writeTarget v t).mem } := by
  cases t with
  | reg r => cases r <;> rfl
  | plBuf i => rfl
  | inBuf i => rfl
  | outBuf i => rfl
  | reserved => rfl

/-! ## Host accesses: everything each can do -/

/-- A host read: a free byte where it is the output hazard, else the byte of the target. -/
theorem State.hostRead_cases (s : State) (off : Offset) :
    (s.outputHazard (s.targetOf off) = true ∧ s.hostRead off =
      { s with answer := some (Config.freeByte s.draws off.toNat), draws := s.draws + 1 }) ∨
    (s.outputHazard (s.targetOf off) = false ∧ s.hostRead off =
      { s with answer := some (s.readTarget (s.targetOf off)) }) := by
  unfold State.hostRead
  split_ifs with h
  · exact .inl ⟨h, rfl⟩
  · exact .inr ⟨by simpa using h, rfl⟩

/-- A host write of CMD. -/
theorem State.hostWrite_cmd (s : State) {off : Offset} (v : Byte) (h : s.targetOf off = .reg .cmd) :
    s.hostWrite off v = s.writeCmd v := by
  simp [State.hostWrite, h]

/-- A host write of anything else. -/
theorem State.hostWrite_other (s : State) {off : Offset} (v : Byte) (h : s.targetOf off ≠ .reg .cmd) :
    s.hostWrite off v =
      if s.inputHazard (s.targetOf off) then (s.writeTarget v (s.targetOf off)).taint
      else s.writeTarget v (s.targetOf off) := by
  unfold State.hostWrite
  split
  · contradiction
  · rfl

/-- Everything a host write can do: start a command, nothing (CMD while busy), store and taint, or store. -/
theorem State.hostWrite_cases (s : State) (off : Offset) (v : Byte) :
    (s.targetOf off = .reg .cmd ∧ s.pending = none ∧ s.hostWrite off v = s.start v) ∨
    (s.targetOf off = .reg .cmd ∧ s.pending ≠ none ∧ s.hostWrite off v = s) ∨
    (s.targetOf off ≠ .reg .cmd ∧ s.inputHazard (s.targetOf off) = true ∧
      s.hostWrite off v = (s.writeTarget v (s.targetOf off)).taint) ∨
    (s.targetOf off ≠ .reg .cmd ∧ s.inputHazard (s.targetOf off) = false ∧
      s.hostWrite off v = s.writeTarget v (s.targetOf off)) := by
  by_cases h : s.targetOf off = .reg .cmd
  · rw [s.hostWrite_cmd v h]
    cases hp : s.pending with
    | none => exact .inl ⟨h, rfl, by simp [State.writeCmd, State.busy, hp]⟩
    | some p => exact .inr (.inl ⟨h, by simp, by simp [State.writeCmd, State.busy, hp]⟩)
  · rw [s.hostWrite_other v h]
    cases hz : s.inputHazard (s.targetOf off)
    · exact .inr (.inr (.inr ⟨h, rfl, by simp⟩))
    · exact .inr (.inr (.inl ⟨h, rfl, by simp⟩))

/-- An input of a command is something the host may write (30_encoding.md R84). -/
theorem isInput_writable {i : Instr} {t : Target} (h : isInput i t = true) :
    (∃ r, t = .reg r ∧ regAccess r = .rw) ∨ (∃ k, t = .plBuf k) ∨ (∃ k, t = .inBuf k) := by
  cases i <;> cases t <;> simp_all [isInput]
  case crcUpdate => rfl
  case decode.reg r => rcases h with h | h <;> subst h <;> rfl
  case encode.reg r => rcases h with (h | h) | h <;> subst h <;> rfl

/-- Only what the host may write can be the input hazard. -/
theorem State.inputHazard_eq_false (s : State) {t : Target}
    (h : ¬((∃ r, t = .reg r ∧ regAccess r = .rw) ∨ (∃ k, t = .plBuf k) ∨ (∃ k, t = .inBuf k))) :
    s.inputHazard t = false := by
  unfold State.inputHazard
  split
  · rename_i p _
    cases hi : isInput (decodeCmd p.op) t
    · rfl
    · exact absurd (isInput_writable hi) h
  · rfl

/-- STATUS is no output of any command: it is read exactly (70_reset_and_hazards.md R213). -/
theorem State.outputHazard_status (s : State) : s.outputHazard (.reg .status) = false := by
  unfold State.outputHazard
  split
  · rename_i p _
    rcases decodeCmd_cases p.op with ⟨-, h⟩ | ⟨-, h⟩ | ⟨-, h⟩ | ⟨-, h⟩ | ⟨-, h⟩ <;> rw [h] <;> rfl
  · rfl

/-- A reserved offset is no output of any command. -/
theorem State.outputHazard_reserved (s : State) : s.outputHazard .reserved = false := by
  unfold State.outputHazard
  split
  · rename_i p _
    rcases decodeCmd_cases p.op with ⟨-, h⟩ | ⟨-, h⟩ | ⟨-, h⟩ | ⟨-, h⟩ | ⟨-, h⟩ <;> rw [h] <;> rfl
  · rfl

/-- What the host may write reads back as written. -/
theorem State.readTarget_writeTarget (s : State) (v : Byte) {t : Target}
    (h : (∃ r, t = .reg r ∧ regAccess r = .rw) ∨ (∃ k, t = .plBuf k) ∨ (∃ k, t = .inBuf k)) :
    (s.writeTarget v t).readTarget t = v := by
  rcases h with ⟨r, rfl, hr⟩ | ⟨k, rfl⟩ | ⟨k, rfl⟩
  · exact s.readReg_writeReg v hr
  · simp [State.writeTarget, State.readTarget, State.plByte]
  · simp [State.writeTarget, State.readTarget, State.inByte]

/-- No buffer byte but the one a write is aimed at changes. -/
theorem State.byteAt_writeTarget (s : State) (v : Byte) (p : Params) {off a : Nat} (h : a ≠ off) :
    (s.writeTarget v (target p off)).byteAt a = s.byteAt a := by
  cases ht : target p off with
  | reg r => cases r <;> rfl
  | plBuf i =>
    obtain ⟨-, rfl⟩ := target_plBuf.1 ht
    exact s.byteAt_store_other v h
  | inBuf i =>
    obtain ⟨-, rfl⟩ := target_inBuf.1 ht
    exact s.byteAt_store_other v h
  | outBuf i => rfl
  | reserved => rfl

end Sys2Proof.Machine
end

