-- ==== Sys2Proof/Laws/Crc.lean ====
section
/-! SUPPORT. The laws of the CRC-8 function (40_crc.md R110 to R114) and of the two CRC commands. -/

namespace Sys2Proof.Machine

@[simp] theorem crc8_nil : crc8 [] = 0x00 := rfl

/-- One more byte is one more step (40_crc.md R110). -/
theorem crc8_append_one (seq : List Byte) (b : Byte) : crc8 (seq ++ [b]) = crc8Step (crc8 seq) b := by
  simp [crc8]

/-- A turn of the loop is linear. -/
theorem crcShift_xor (x y : Byte) : crcShift (x ^^^ y) = crcShift x ^^^ crcShift y := by
  revert x y
  have key : ∀ x : Byte, crcShift x = (x <<< 1) ^^^ (if x.getLsbD 7 then 0x07 else 0x00) := by decide
  intro x y
  rw [key, key x, key y, BitVec.shiftLeft_xor_distrib, BitVec.getLsbD_xor]
  have cancel : ∀ u v : Byte, u ^^^ v = u ^^^ 7#8 ^^^ (v ^^^ 7#8) := fun u v => by
    rw [BitVec.xor_comm v, ← BitVec.xor_assoc, BitVec.xor_assoc u, BitVec.xor_self, BitVec.xor_zero]
  cases x.getLsbD 7 <;> cases y.getLsbD 7
  · simp
  · simp [BitVec.xor_assoc]
  · simp only [Bool.true_xor, Bool.not_false, if_true, Bool.false_eq_true, if_false]
    ac_rfl
  · simpa using cancel (x <<< 1) (y <<< 1)

theorem crcShifts_xor (k : Nat) (x y : Byte) : crcShifts k (x ^^^ y) = crcShifts k x ^^^ crcShifts k y := by
  induction k generalizing x y with
  | zero => rfl
  | succ k ih => simp [crcShifts, crcShift_xor, ih]

theorem crcShifts_zero (k : Nat) : crcShifts k 0x00 = 0x00 := by
  induction k with
  | zero => rfl
  | succ k ih => exact ih

/-- A turn of the loop loses nothing: only 0x00 goes to 0x00. -/
theorem crcShift_eq_zero {x : Byte} (h : crcShift x = 0x00) : x = 0x00 := by
  revert x
  decide

theorem crcShifts_eq_zero {k : Nat} {x : Byte} (h : crcShifts k x = 0x00) : x = 0x00 := by
  induction k generalizing x with
  | zero => exact h
  | succ k ih => exact crcShift_eq_zero (ih h)

/-- The step is linear in the accumulator and the byte together (40_crc.md R114). -/
theorem crc8Step_xor (c d a b : Byte) : crc8Step (c ^^^ d) (a ^^^ b) = crc8Step c a ^^^ crc8Step d b := by
  simp only [crc8Step, ← crcShifts_xor]
  congr 1
  ac_rfl

/-- A byte equal to the accumulator cancels it (40_crc.md R117). -/
theorem crc8Step_self (v : Byte) : crc8Step v v = 0x00 := by
  simp only [crc8Step, BitVec.xor_self]
  exact crcShifts_zero 8

/-- CRC_UPDATE, everything it can do. -/
theorem execCrcUpdate_cases (s : State) :
    (s.tainted = false ∧ execCrcUpdate s =
      .next { s with crc := crc8Step s.crc s.crcDin, result := 0x01, pending := none }) ∨
    (s.tainted = true ∧ execCrcUpdate s =
      .next { s with crc := Config.freeByte s.draws 0x003, result := 0x01, pending := none, draws := s.draws + 1 }) := by
  unfold execCrcUpdate
  cases s.tainted
  · exact .inl ⟨rfl, rfl⟩
  · refine .inr ⟨rfl, ?_⟩
    have : (pickCode (legalCodes .crcUpdate) (Config.freeChoice s.draws)).byte = 0x01 := by
      simp [legalCodes, pickCode, Nat.mod_one, ResultCode.byte]
    simp only [if_true, State.crcUpdatedTainted, State.completeFreely, State.complete, State.drawn, this]
    rfl

/-- The code a tainted command reports is one of its legal ones. -/
theorem pickCode_mem {cs : List ResultCode} (h : cs ≠ []) (k : Nat) : pickCode cs k ∈ cs := by
  have hl : k % cs.length < cs.length := Nat.mod_lt _ (List.length_pos_iff.2 h)
  simp [pickCode, List.getElem?_eq_getElem hl]

end Sys2Proof.Machine
end

