-- ==== Sys2Proof/Laws/Framing.lean ====
section
/-! SUPPORT. Everything DECODE and ENCODE can do, and what the bytes of a frame are (41_framing.md). -/

namespace Sys2Proof.Machine

/-! ## DECODE -/

/-- Past the length checks and the sentinels, with the checksum byte as it stands. -/
structure State.Framed (s : State) : Prop where
  fits : frameOverhead + s.inPayloadLength ≤ s.inLength
  starts : s.inByte 0 = startSentinel
  ends : s.inByte (7 + s.inPayloadLength) = endSentinel

/-- DECODE on untouched inputs, everything it can do: LEN, FORMAT, CHECKSUM or OK (41_framing.md R138). -/
theorem State.deframed_cases (s : State) :
    (s.inLength < frameOverhead + s.inPayloadLength ∧ s.deframed = s.complete .len) ∨
    (frameOverhead + s.inPayloadLength ≤ s.inLength ∧
      (s.inByte 0 ≠ startSentinel ∨ s.inByte (7 + s.inPayloadLength) ≠ endSentinel) ∧
      s.deframed = s.complete .format) ∨
    (s.Framed ∧ crc8 s.inCovered ≠ s.inByte (6 + s.inPayloadLength) ∧
      s.deframed = { s with crc := crc8 s.inCovered }.complete .checksum) ∨
    (s.Framed ∧ crc8 s.inCovered = s.inByte (6 + s.inPayloadLength) ∧
      s.deframed = { s with
        crc := crc8 s.inCovered, rxAction := s.inByte 1, rxPlen := s.inByte 5 }.complete .ok) := by
  by_cases h1 : s.inLength < frameOverhead + s.inPayloadLength
  · refine .inl ⟨h1, ?_⟩
    simp [State.deframed, h1]
  · have h0 : ¬s.inLength < frameOverhead := by omega
    refine .inr ?_
    by_cases h2 : s.inByte 0 = startSentinel
    · by_cases h3 : s.inByte (7 + s.inPayloadLength) = endSentinel
      · refine .inr ?_
        by_cases h4 : crc8 s.inCovered = s.inByte (6 + s.inPayloadLength)
        · exact .inr ⟨⟨by omega, h2, h3⟩, h4, by simp [State.deframed, h0, h1, h2, h3, h4]⟩
        · exact .inl ⟨⟨by omega, h2, h3⟩, h4, by simp [State.deframed, h0, h1, h2, h3, h4]⟩
      · exact .inl ⟨by omega, .inr h3, by simp [State.deframed, h0, h1, h2, h3]⟩
    · exact .inl ⟨by omega, .inl h2, by simp [State.deframed, h0, h1, h2]⟩

theorem execDecode_untainted {s : State} (h : s.tainted = false) : execDecode s = .next s.deframed := by
  simp [execDecode, h]

/-- The covered bytes, byte by byte. -/
theorem State.inCovered_eq_map (s : State) :
    s.inCovered = (List.range' 1 (5 + s.inPayloadLength)).map s.inByte := by
  simp only [State.inCovered, State.inBytes, State.bytesAt]
  rw [← List.map_add_range' (a := inBase), List.map_map]
  rfl

/-- DECODE reads memory through the frame's bytes alone (41_framing.md R139). -/
theorem State.inCovered_congr {s t : State} (h : ∀ i, 1 ≤ i → i ≤ 5 + s.inPayloadLength → t.inByte i = s.inByte i)
    (hn : t.inPayloadLength = s.inPayloadLength) : t.inCovered = s.inCovered := by
  simp only [State.inCovered_eq_map, hn]
  refine List.map_congr_left fun i hi => ?_
  simp only [List.mem_range'_1] at hi
  exact h i (by omega) (by omega)

/-! ## ENCODE -/

theorem length_frameBody (a : Byte) (p : List Byte) : (frameBody a p).length = 5 + p.length := by
  simp [frameBody]; omega

theorem length_frameOf (a : Byte) (p : List Byte) : (frameOf a p).length = 8 + p.length := by
  simp [frameOf, length_frameBody]; omega

theorem State.length_outPayload (s : State) : s.outPayload.length = pairValue s.txPlen :=
  s.length_bytesAt _ _

/-- The image fills OUT_BUF exactly (41_framing.md R153). -/
theorem State.length_outImage {s : State} (h : 8 + pairValue s.txPlen ≤ s.params.outCap) :
    s.outImage.length = s.params.outCap := by
  simp [State.outImage, length_frameOf, s.length_outPayload, frameOverhead]; omega

/-- ENCODE on untouched inputs, everything it can do: LEN or OK. -/
theorem State.enframed_cases (s : State) :
    ((maxPayload < pairValue s.txPlen ∨ s.params.outCap < frameOverhead + pairValue s.txPlen) ∧
      s.enframed = s.complete .len) ∨
    (pairValue s.txPlen ≤ maxPayload ∧ frameOverhead + pairValue s.txPlen ≤ s.params.outCap ∧
      s.enframed = { s.storeBytes outBase s.outImage with
        crc := crc8 (frameBody s.txAction s.outPayload)
        txFlen := pairOf (frameOverhead + pairValue s.txPlen) }.complete .ok) := by
  by_cases h : maxPayload < pairValue s.txPlen ∨ s.params.outCap < frameOverhead + pairValue s.txPlen
  · exact .inl ⟨h, by simp only [State.enframed, if_pos h]⟩
  · exact .inr ⟨by omega, by omega, by simp only [State.enframed, if_neg h]⟩

theorem execEncode_untainted {s : State} (h : s.tainted = false) : execEncode s = .next s.enframed := by
  simp [execEncode, h]

/-- The bytes of a frame (30_encoding.md R90): start sentinel and body. -/
theorem frameOf_getElem?_body (a : Byte) (p : List Byte) {i : Nat} (h : i < 5 + p.length) :
    (frameOf a p)[1 + i]? = (frameBody a p)[i]? := by
  rw [frameOf, Nat.add_comm, List.getElem?_cons_succ, List.getElem?_append_left (by rw [length_frameBody]; exact h)]

/-- The bytes of a frame (30_encoding.md R90): the payload. -/
theorem frameOf_getElem?_payload (a : Byte) (p : List Byte) {k : Nat} (h : k < p.length) :
    (frameOf a p)[6 + k]? = p[k]? := by
  rw [show 6 + k = 1 + (5 + k) by omega, frameOf_getElem?_body a p (by omega)]
  simp [frameBody, Nat.add_comm 5 k]

/-- The bytes of a frame (30_encoding.md R90): the checksum. -/
theorem frameOf_getElem?_checksum (a : Byte) (p : List Byte) :
    (frameOf a p)[6 + p.length]? = some (crc8 (frameBody a p)) := by
  rw [frameOf, show 6 + p.length = (5 + p.length) + 1 by omega, List.getElem?_cons_succ,
    List.getElem?_append_right (by rw [length_frameBody]), length_frameBody]
  simp

/-- The bytes of a frame (30_encoding.md R90): the end sentinel. -/
theorem frameOf_getElem?_end (a : Byte) (p : List Byte) :
    (frameOf a p)[7 + p.length]? = some endSentinel := by
  rw [frameOf, show 7 + p.length = (6 + p.length) + 1 by omega, List.getElem?_cons_succ,
    List.getElem?_append_right (by rw [length_frameBody]; omega), length_frameBody,
    show 6 + p.length - (5 + p.length) = 1 by omega]
  rfl

/-- What a byte of OUT_BUF is after a successful ENCODE. -/
theorem State.outByte_enframed {s : State} (h1 : pairValue s.txPlen ≤ 255)
    (h2 : 8 + pairValue s.txPlen ≤ s.params.outCap) {i : Nat} (hi : i < s.params.outCap) :
    s.enframed.outByte i = s.outImage.getD i 0 := by
  rcases s.enframed_cases with ⟨hc, -⟩ | ⟨-, -, he⟩
  · simp only [maxPayload, frameOverhead] at hc; omega
  · have hb : s.enframed.outByte i = (s.storeBytes outBase s.outImage).byteAt (outBase + i) := by
      rw [he]; rfl
    rw [hb, State.byteAt_storeBytes, State.length_outImage h2, if_pos (by omega), Nat.add_sub_cancel_left]

/-- Inside the frame the image is the frame. -/
theorem State.outImage_frame (s : State) {i : Nat} (h : i < 8 + pairValue s.txPlen) :
    s.outImage.getD i 0 = ((frameOf s.txAction s.outPayload)[i]?).getD 0 := by
  rw [State.outImage, List.getD_eq_getElem?_getD,
    List.getElem?_append_left (by rw [length_frameOf, s.length_outPayload]; exact h)]

/-- Beyond the frame the image is zero (41_framing.md R153). -/
theorem State.outImage_beyond (s : State) {i : Nat} (h : 8 + pairValue s.txPlen ≤ i) :
    s.outImage.getD i 0 = 0 := by
  rw [State.outImage, List.getD_eq_getElem?_getD,
    List.getElem?_append_right (by rw [length_frameOf, s.length_outPayload]; exact h), List.getElem?_replicate]
  split_ifs <;> rfl

theorem pairValue_pairOf {n : Nat} (h : n < 65536) : pairValue (pairOf n) = n := by
  simp [pairValue, pairOf]; omega

end Sys2Proof.Machine
end

