-- ==== Sys2Proof/Laws/PerInstr.lean ====
section
/-! SUPPORT. Statements made for each instruction: the decoder reads back what the encoder writes. -/

namespace Sys2Proof.Laws.RoundTrip

/-- A well-formed instruction is decoded from its own word. -/
def Statement (i : Instr) : Prop := i.wf = true → Sys2Proof.decode (Sys2Proof.encode i) = .ok i

theorem crcInit : Statement .crcInit := fun _ => rfl

theorem crcUpdate : Statement .crcUpdate := fun _ => rfl

theorem decode : Statement .decode := fun _ => rfl

theorem encode : Statement .encode := fun _ => rfl

theorem illegal (op : Byte) : Statement (.illegal op) := fun h => by
  simp only [Instr.wf, Bool.not_eq_true'] at h
  simp [Sys2Proof.encode, Sys2Proof.decode, decodeCmd_illegal h]

theorem wr (off : Offset) (v : Byte) : Statement (.wr off v) := fun _ => decodeBus_busWrite off v

theorem rd (off : Offset) : Statement (.rd off) := fun _ => decodeBus_busRead off

end Sys2Proof.Laws.RoundTrip
end

