-- ==== Sys2Proof/Laws/Step.lean ====
section
/-! SUPPORT. Everything a step can do. -/

namespace Sys2Proof.Machine

/-- Which bus cycles touch the window (20_memory.md R50). -/
theorem touchesWindow_iff {p : Params} {c : BusCycle} :
    touchesWindow p c = true ↔ c.addr < p.base + 0x800 ∧ p.base < c.addr + c.span :=
  decide_eq_true_iff

/-- An 8-bit cycle reaches one byte (20_memory.md R57). -/
theorem BusCycle.span_of_byte {c : BusCycle} (h : c.bits = 8) : c.span = 1 := by simp [BusCycle.span, h]

/-- A cycle of any width whose address lies in the window touches it. -/
theorem touchesWindow_of_addr {p : Params} {c : BusCycle} {off : Offset} (h : c.addr = p.base + off.toNat) :
    touchesWindow p c = true := by
  have hlt := off.isLt
  have hspan : 1 ≤ c.span := le_max_left _ _
  exact touchesWindow_iff.2 (by omega)

/-- The bus address of an offset names that offset, at every FCB_BASE (20_memory.md R50). -/
theorem offsetAt_busAddress (p : Params) (off : Offset) : offsetAt p (busAddress p off) = some off := by
  have hlt := off.isLt
  have hin : p.base ≤ busAddress p off ∧ busAddress p off < p.base + windowSize := by
    unfold busAddress windowSize; omega
  rw [offsetAt, if_pos hin, busAddress, Nat.add_sub_cancel_left, BitVec.ofNat_toNat]
  rfl

/-- What the next input of the outside world can come to. -/
theorem fetchInput_cases (s : State) :
    (s.inputs = [] ∧ fetchInput s = .settle s) ∨
    (∃ w rest i, s.inputs = .word w :: rest ∧ decode (.bus20 w) = .ok i ∧
      fetchInput s = .run i (s.atAccess rest)) ∨
    (∃ w rest, s.inputs = .word w :: rest ∧ fetchInput s = .refuse (.noSuchBusWord w)) ∨
    (∃ rest, s.inputs = .wait :: rest ∧
      fetchInput s = .run (.rd 0x001) (s.atAccess (if s.busy then s.inputs else rest))) ∨
    (∃ c rest off, s.inputs = .cycle c :: rest ∧ c.master = .host ∧ c.bits = 8 ∧
      offsetAt s.params c.addr = some off ∧ fetchInput s = .run (cycleAccess off c.data) (s.atAccess rest)) ∨
    (∃ c rest, s.inputs = .cycle c :: rest ∧ fetchInput s = .settle (s.withInputs rest)) ∨
    (∃ c rest r, s.inputs = .cycle c :: rest ∧ touchesWindow s.params c = true ∧
      (c.master ≠ .host ∨ c.bits ≠ 8) ∧ fetchInput s = .refuse r) ∨
    (∃ rest, s.inputs = .reset :: rest ∧ fetchInput s = .settle (s.withInputs rest).applyReset) := by
  unfold fetchInput
  split
  · rename_i h; exact .inl ⟨h, rfl⟩
  · rename_i w rest h
    unfold fetchWord
    split
    · rename_i i hi; exact .inr (.inl ⟨w, rest, i, h, hi, rfl⟩)
    · exact .inr (.inr (.inl ⟨w, rest, h, rfl⟩))
  · rename_i rest h; exact .inr (.inr (.inr (.inl ⟨rest, h, rfl⟩)))
  · rename_i c rest h
    unfold fetchCycle
    by_cases h1 : touchesWindow s.params c = true
    · rw [if_pos h1]
      by_cases h2 : c.master = .host
      · rw [if_neg (not_not.2 h2)]
        by_cases h3 : c.bits = 8
        · rw [if_neg (not_not.2 h3)]
          split
          · rename_i off ho
            exact .inr (.inr (.inr (.inr (.inl ⟨c, rest, off, h, h2, h3, ho, rfl⟩))))
          · exact .inr (.inr (.inr (.inr (.inr (.inl ⟨c, rest, h, rfl⟩)))))
        · rw [if_pos h3]
          exact .inr (.inr (.inr (.inr (.inr (.inr (.inl ⟨c, rest, _, h, h1, .inr h3, rfl⟩))))))
      · rw [if_pos h2]
        exact .inr (.inr (.inr (.inr (.inr (.inr (.inl ⟨c, rest, _, h, h1, .inl h2, rfl⟩))))))
    · rw [if_neg h1]
      exact .inr (.inr (.inr (.inr (.inr (.inl ⟨c, rest, h, rfl⟩)))))
  · rename_i rest h; exact .inr (.inr (.inr (.inr (.inr (.inr (.inr ⟨rest, h, rfl⟩))))))

/-- A bus word decodes to a host access. -/
theorem decode_bus20_cases {w : BusWord} {i : Instr} (h : decode (.bus20 w) = .ok i) :
    (∃ off v, i = .wr off v) ∨ (∃ off, i = .rd off) := by
  simp only [decode, decodeBus] at h
  split_ifs at h <;> simp only [Except.ok.injEq] at h <;> subst h
  · exact .inl ⟨_, _, rfl⟩
  · exact .inr ⟨_, rfl⟩

/-- The next step takes the next input where no command is due. -/
theorem fetch_eq_fetchInput {s : State} (h : s.pending = none ∨ (0 < s.left ∧ s.inputs ≠ [])) :
    fetch s = fetchInput s := by
  unfold fetch
  split
  · rename_i p hp
    rcases h with h | ⟨h1, h2⟩
    · simp [hp] at h
    · have : s.completionDue = false := by
        simp only [State.completionDue, Bool.or_eq_false_iff, beq_eq_false_iff_ne, List.isEmpty_eq_false_iff]
        exact ⟨by omega, h2⟩
      simp [this]
  · rfl

/-- The next step is the pending command's completion where that is due. -/
theorem fetch_completion {s : State} {p : Pending} (hp : s.pending = some p) (h : s.left = 0 ∨ s.inputs = []) :
    fetch s = .run (decodeCmd p.op) s := by
  have : s.completionDue = true := by
    rcases h with h | h <;> simp [State.completionDue, h]
  simp [fetch, hp, this]

/-- Everything a step that has a next state can have done: a completion step, a host access, an input that is
neither, or a reset. -/
theorem step_cases {s t : State} (h : step s = .next t) :
    (∃ p, s.pending = some p ∧ (s.left = 0 ∨ s.inputs = []) ∧ exec (decodeCmd p.op) s = .next t) ∨
    ((s.pending = none ∨ (0 < s.left ∧ s.inputs ≠ [])) ∧
      ((∃ off v rest, t = (s.atAccess rest).hostWrite off v) ∨
       (∃ off rest, t = (s.atAccess rest).hostRead off) ∨
       t = s ∨
       (∃ rest, t = s.withInputs rest) ∨
       (∃ rest, s.inputs = .reset :: rest ∧ t = (s.withInputs rest).applyReset))) := by
  by_cases hc : s.pending = none ∨ (0 < s.left ∧ s.inputs ≠ [])
  · refine .inr ⟨hc, ?_⟩
    rw [step, fetch_eq_fetchInput hc] at h
    rcases fetchInput_cases s with ⟨-, hf⟩ | ⟨w, rest, i, -, hi, hf⟩ | ⟨w, rest, -, hf⟩ | ⟨rest, -, hf⟩ |
      ⟨c, rest, off, -, -, -, -, hf⟩ | ⟨c, rest, -, hf⟩ | ⟨c, rest, r, -, -, -, hf⟩ | ⟨rest, hr, hf⟩ <;>
      rw [hf] at h <;> simp only [Host.Outcome.next.injEq, reduceCtorEq] at h
    · exact .inr (.inr (.inl h.symm))
    · rcases decode_bus20_cases hi with ⟨off, v, rfl⟩ | ⟨off, rfl⟩ <;>
        simp only [exec, execWr, execRd, Host.Outcome.next.injEq] at h
      · exact .inl ⟨off, v, rest, h.symm⟩
      · exact .inr (.inl ⟨off, rest, h.symm⟩)
    · simp only [exec, execRd, Host.Outcome.next.injEq] at h
      exact .inr (.inl ⟨_, _, h.symm⟩)
    · cases hd : c.data <;> rw [hd] at h <;>
        simp only [cycleAccess, exec, execWr, execRd, Host.Outcome.next.injEq] at h
      · exact .inr (.inl ⟨off, rest, h.symm⟩)
      · exact .inl ⟨off, _, rest, h.symm⟩
    · exact .inr (.inr (.inr (.inl ⟨rest, h.symm⟩)))
    · exact .inr (.inr (.inr (.inr ⟨rest, hr, h.symm⟩)))
  · cases hp : s.pending with
    | none => exact absurd (.inl hp) hc
    | some p =>
      have hd : s.left = 0 ∨ s.inputs = [] := by
        by_contra hn
        simp only [not_or] at hn
        exact hc (.inr ⟨by omega, hn.2⟩)
      rw [step, fetch_completion hp hd] at h
      exact .inl ⟨p, rfl, hd, h⟩

end Sys2Proof.Machine
end

