-- ==== Sys2Proof/Machine/Protocol.lean ====
section
/-! DEFINITION. The protocol's constants, which the FCB carries as ordinary bytes (30_encoding.md R97). -/

namespace Sys2Proof.Machine.Protocol

/-- I2C_READ request. -/
def i2cReadRequest : Byte := 0x1D
/-- I2C_READ response. -/
def i2cReadResponse : Byte := 0x52
/-- I2C_WRITE request. -/
def i2cWriteRequest : Byte := 0x1E
/-- STATUS request. -/
def statusRequest : Byte := 0x80
/-- STATUS response. -/
def statusResponse : Byte := 0xC0
/-- GPIO_WRITE request. -/
def gpioWriteRequest : Byte := 0xB7
/-- ERROR response. -/
def errorResponse : Byte := 0x46
/-- Sub-code Other. -/
def subOther : Byte := 0x90
/-- Sub-code BadChecksum; not DECODE's CHECKSUM (91_not_in_source.md). -/
def subBadChecksum : Byte := 0x91
/-- Sub-code TimeoutBusy. -/
def subTimeoutBusy : Byte := 0x92
/-- Sub-code NoAck. -/
def subNoAck : Byte := 0x93
/-- Sub-code busy/timeout, never produced. -/
def subBusyTimeout : Byte := 0x94
/-- Sub-code no free adapter, never produced. -/
def subNoFreeAdapter : Byte := 0x95

end Sys2Proof.Machine.Protocol
end

