-- ==== Sys2Proof/Tests/Slice0.lean ====
section
/-! SUPPORT. Tests of the model and witnesses for the statements. Expected values come from spec/95_test_vectors.md
(the vector's name stands in each comment) and from the encodings of spec/30_encoding.md. -/

namespace Sys2Proof.Tests

open Sys2Proof.Machine

/-! ## Small states -/

/-- The next state, where there is one. -/
def after (o : Host.Outcome State Fault Refusal) : Option State :=
  match o with
  | .next t => some t
  | .fault _ => none
  | .refused _ => none

/-- Buffer cells from an offset on. -/
def cells (a : Nat) (bytes : List Byte) : Memory := (List.range' a bytes.length).zip bytes

/-- Reset, then bytes in IN_BUF and IN_LEN their number. -/
def loaded (bytes : List Byte) : State :=
  { State.reset with mem := cells inBase bytes, inLen := pairOf bytes.length }

/-- Reset, then an action and a payload staged. -/
def staged (action : Byte) (payload : List Byte) : State :=
  { State.reset with txAction := action, mem := cells plBase payload, txPlen := pairOf payload.length }

/-- Reset, then a command pending with two accesses to come. -/
def busyWith (op : Byte) : State := { State.reset with pending := some ⟨op, false⟩, left := 2 }

/-- A command pending and tainted. -/
def taintedWith (op : Byte) : State := { State.reset with pending := some ⟨op, true⟩ }

/-- The frame of vector F-1. -/
def frameF1 : List Byte := [0xAA, 0x1E, 0, 0, 0, 5, 0x90, 0x10, 0x02, 0xAB, 0xCD, 0xD7, 0x55]

/-- The frame of vector F-16a. -/
def frameF16 : List Byte := [0xAA, 0x80, 0, 0, 0, 6, 0x11, 0x22, 0x33, 0x44, 0x42, 0x55, 0x15, 0x55]

/-! ## WellFormed: what it refuses -/

theorem test_wf_refuses_command_codes :
    ∀ op ∈ commandCodes, (Instr.illegal op).wf = false := by decide

theorem test_wf_admits_the_rest : (Instr.illegal 0x00).wf = true ∧ (Instr.illegal 0x05).wf = true ∧
    (Instr.illegal 0xFF).wf = true ∧ (Instr.wr 0x7FF 0xFF).wf = true := by decide

/-! ## Decode: words written out from 30_encoding.md R82, R83, R100 -/

theorem test_decode_crcInit : decode (.cmd8 0b00000001) = .ok .crcInit := by decide
theorem test_decode_crcUpdate : decode (.cmd8 0b00000010) = .ok .crcUpdate := by decide
theorem test_decode_decode : decode (.cmd8 0b00000011) = .ok .decode := by decide
theorem test_decode_encode : decode (.cmd8 0b00000100) = .ok .encode := by decide
theorem test_decode_illegal : decode (.cmd8 0b00000000) = .ok (.illegal 0x00) ∧
    decode (.cmd8 0b00000101) = .ok (.illegal 0x05) ∧ decode (.cmd8 0b11111111) = .ok (.illegal 0xFF) := by decide
/-- `wr CMD, 03` = 80003, `wr PL+0, C0` = 900C0, `wr 7FF, FF` = FFFFF (section 2.6). -/
theorem test_decode_wr : decode (.bus20 0x80003) = .ok (.wr 0x000 0x03) ∧
    decode (.bus20 0x900C0) = .ok (.wr 0x100 0xC0) ∧ decode (.bus20 0xFFFFF) = .ok (.wr 0x7FF 0xFF) := by decide
/-- `rd STATUS` = 00100, `rd IN+6` = 20600 (section 2.6). -/
theorem test_decode_rd : decode (.bus20 0x00100) = .ok (.rd 0x001) ∧
    decode (.bus20 0x20600) = .ok (.rd 0x206) := by decide
theorem test_decode_rejects_read_word_with_data :
    decode (.bus20 0x00101) = .error (.readWordWithData 0x00101) := by decide
theorem test_decode_table_words : decodeTableWord 8 0x02 = some .crcUpdate ∧
    decodeTableWord 8 0x00 = some (.illegal 0x00) ∧ decodeTableWord 24 0x80003 = some (.wr 0x000 0x03) ∧
    decodeTableWord 24 0x00100 = some (.rd 0x001) ∧ decodeTableWord 24 0x100000 = none := by decide

/-! ## The CRC (vectors C-1, C-9, C-16) -/

theorem test_crc8_check_value :
    crc8 [0x31, 0x32, 0x33, 0x34, 0x35, 0x36, 0x37, 0x38, 0x39] = 0xF4 := by decide +kernel
theorem test_crc8_step : crc8Step 0x00 0x40 = 0xC7 ∧ crc8Step 0x12 0x34 = 0xF2 := by decide
/-- C-21. -/
theorem test_crcInit : (after (exec .crcInit { State.reset with crc := 0x5F })).map
    (fun t => (t.crc, t.result)) = some (0x00, 0x01) := by decide
/-- C-22. -/
theorem test_crcUpdate : (after (exec .crcUpdate { State.reset with crcDin := 0x01 })).map
    (fun t => (t.crc, t.crcDin, t.result)) = some (0x07, 0x01, 0x01) := by decide
/-- C-26: CRC_UPDATE goes on from what a frame command left. -/
theorem test_crcUpdate_continues : (after (exec .crcUpdate { State.reset with crc := 0xD7 })).map
    (·.crc) = some 0x2B := by decide

/-! ## DECODE (vectors F-1, F-13) -/

theorem test_decode_ok : (after (exec .decode (loaded frameF1))).map
    (fun t => (t.result, t.rxAction, t.rxPlen, t.crc)) =
      some (0x01, Protocol.i2cWriteRequest, 0x05, 0xD7) := by decide +kernel
/-- F-13: the expected checksum stands in CRC; RX_ACTION is not written. -/
theorem test_decode_checksum :
    (after (exec .decode (loaded [0xAA, 0x80, 0, 0, 0, 0, 0x96, 0x55]))).map
    (fun t => (t.result, t.rxAction, t.crc)) = some (0x04, 0x00, 0x97) := by decide +kernel

/-! ## ENCODE (vectors E-1, E-9) -/

theorem test_encode_ok : (after (exec .encode (staged Protocol.statusResponse [0x01, 0x00]))).map
    (fun t => (t.result, t.outBytes 0 12, pairValue t.txFlen, t.crc)) =
      some (0x01, [0xAA, 0xC0, 0, 0, 0, 2, 1, 0, 0x0C, 0x55, 0, 0], 10, 0x0C) := by decide +kernel
/-- E-9: TX_PLEN = 256 is LEN even where it would fit. -/
theorem test_encode_len :
    (after (exec .encode { State.reset with
      txPlen := ⟨0x00, 0x01⟩, params := { inCap := 254, outCap := 512, base := 0 } })).map
    (fun t => (t.result, t.mem, t.txFlen, t.crc)) = some (0x02, [], ⟨0, 0⟩, 0x00) := by decide

/-! ## ILLEGAL (vector I-4) -/

theorem test_illegal : (after (exec (.illegal 0x80) { State.reset with crc := 0x97 })).map
    (fun t => (t.result, t.crc)) = some (0x05, 0x97) := by decide

/-! ## Host accesses (vectors M-14, M-9, M-5, H-1, H-3) -/

/-- M-14: the low byte alone; H-3: a write of an input taints even where the value is the same. -/
theorem test_wr_low_byte : (after (exec (.wr 0x008 0x0D) { State.reset with inLen := ⟨0x2C, 0x01⟩ })).map
    (·.inLen) = some ⟨0x0D, 0x01⟩ := by decide
theorem test_wr_taints : (after (exec (.wr 0x009 0x00) (busyWith 0x03))).map
    (·.pending) = some (some ⟨0x03, true⟩) := by decide
/-- M-5. -/
theorem test_rd_capacity : (after (exec (.rd 0x00E) State.reset)).map (·.answer) = some (some 0xFE) ∧
    (after (exec (.rd 0x00F) State.reset)).map (·.answer) = some (some 0x00) := by decide
/-- H-1 and H-4: while busy STATUS and a register that is no output are read exactly. -/
theorem test_rd_busy : (after (exec (.rd 0x001) (busyWith 0x03))).map (·.answer) = some (some 0x01) ∧
    (after (exec (.rd 0x00C) (busyWith 0x03))).map (·.answer) = some (some 0x00) := by decide

/-! ## The step and its inputs -/

/-- Each row's word, placed by withFetchWord, is what the next step runs. -/
theorem test_fetch_rows :
    fetch (State.reset.withFetchWord 8 0x03) = .run .decode (State.reset.withFetchWord 8 0x03) ∧
    fetch (State.reset.withFetchWord 24 0x80003) = .run (.wr 0x000 0x03) State.reset ∧
    fetch (State.reset.withFetchWord 24 0x00100) = .run (.rd 0x001) State.reset := by decide
/-- M-18 (16 bits), a sub-byte width, no bits at all, and accesses of a second master in and outside the window. -/
theorem test_refused_cycles :
    fetch { State.reset with inputs := [.cycle ⟨.host, 16, 0x000, none⟩] } = .refuse (.accessWidth 16) ∧
    fetch { State.reset with inputs := [.cycle ⟨.host, 4, 0x003, none⟩] } = .refuse (.accessWidth 4) ∧
    fetch { State.reset with inputs := [.cycle ⟨.host, 0, 0x003, none⟩] } = .refuse (.accessWidth 0) ∧
    fetch { State.reset with inputs := [.cycle ⟨.other, 8, 0x7FF, none⟩] } = .refuse .secondMaster ∧
    fetch { State.reset with inputs := [.cycle ⟨.other, 8, 0x800, none⟩] } = .settle State.reset := by decide
/-- RST-3: reset abandons the pending command. -/
theorem test_reset_abandons :
    (after (step { busyWith 0x03 with result := 0x01, inputs := [.reset] })).map
      (fun t => (t.pending, t.result, t.mem)) = some (none, 0x00, []) := by decide
/-- Programs P1 and P2, bus words: `CRC.UPD 31` and the writes of `LOADPL C0, 01, 00`. -/
theorem test_expansions : (Pseudo.crcUpd 0x31).expand = [.word 0x80431, .word 0x80002, .wait] ∧
    (Pseudo.loadPl 0xC0 [0x01, 0x00]).expand =
      [.word 0x807C0, .word 0x90001, .word 0x90100, .word 0x80A02, .word 0x80B00] := by decide

/-! ## Witnesses: concrete states and operands that meet each statement's hypotheses -/

theorem witness_ResetInputResetsRegistersAndFreesBuffers :
    let s := { busyWith 0x04 with inputs := [.reset, .wait] }
    s.inputs = .reset :: [.wait] ∧ s.takesInput := by decide

theorem witness_HostReadReturnsTheByteOfTheMap :
    State.reset.params.ok ∧
    ∀ off ∈ [0x000, 0x001, 0x002, 0x003, 0x004, 0x005, 0x006, 0x007, 0x008, 0x009, 0x00A, 0x00B, 0x00C, 0x00D,
      0x00E, 0x00F, 0x010, 0x011, 0x100, 0x1FE, 0x200, 0x2FD, 0x400, (0x4FD : Offset)],
      State.reset.outputHazard (State.reset.targetOf off) = false := by decide

theorem witness_OutputReadWhileBusyIsFree :
    let s := busyWith 0x04
    s.pending = some ⟨0x04, false⟩ ∧ (0x04 : Byte) ∈ commandCodes ∧
    isOutput (decodeCmd 0x04) (s.targetOf 0x002) = true ∧ isOutput (decodeCmd 0x04) (s.targetOf 0x4FD) = true ∧
    isOutput (decodeCmd 0x04) (s.targetOf 0x4FE) = false ∧
    isOutput (decodeCmd 0x04) (s.targetOf 0x005) = false := by decide

theorem witness_ResultReadWhileIllegalPendingIsFree :
    (busyWith 0x80).pending = some ⟨0x80, false⟩ ∧ (0x80 : Byte) ∉ commandCodes ∧
    (0x05 : Byte) ∉ commandCodes := by decide

theorem witness_HostReadHasNoSideEffect : State.reset.outputHazard (State.reset.targetOf 0x002) = false := by decide

/-- The statement's clauses, all open at once when idle, and each register's while another command is pending. -/
theorem witness_WriteStoresTheRegisterByte :
    (∀ r ∈ [Reg.crcDin, .txAction, .inLenLo, .inLenHi, .txPlenLo, .txPlenHi],
      State.reset.inputHazard (.reg r) = false) ∧
    (busyWith 0x03).inputHazard (.reg .txAction) = false ∧ (busyWith 0x04).inputHazard (.reg .inLenHi) = false := by
  decide

theorem witness_WriteStoresTheBufferByte :
    State.reset.params.ok ∧ State.reset.inputHazard (.plBuf 254) = false ∧ 254 < 255 ∧
    State.reset.inputHazard (.inBuf 253) = false ∧ 253 < State.reset.params.inCap := by decide

theorem witness_ReservedOffsetsReadZeroAndIgnoreWrites :
    State.reset.params.ok ∧
    ∀ off ∈ [0x012, 0x0FF, 0x1FF, 0x2FE, 0x3FF, 0x4FE, 0x600, (0x7FF : Offset)],
      (0x012 ≤ off.toNat ∧ off.toNat ≤ 0x0FF) ∨ off.toNat = 0x1FF ∨
      (0x200 + State.reset.params.inCap ≤ off.toNat ∧ off.toNat ≤ 0x3FF) ∨
      (0x400 + State.reset.params.outCap ≤ off.toNat ∧ off.toNat ≤ 0x7FF) := by decide

theorem witness_WritesOfReadOnlyBytesHaveNoEffect :
    State.reset.params.ok ∧
    ∀ off ∈ [0x001, 0x011, 0x400, (0x4FD : Offset)],
      off.toNat ∈ [0x001, 0x002, 0x003, 0x005, 0x006, 0x00C, 0x00D, 0x00E, 0x00F, 0x010, 0x011] ∨
      (0x400 ≤ off.toNat ∧ off.toNat < 0x400 + State.reset.params.outCap) := by decide

theorem witness_CommandWriteAcceptedOnlyWhenIdle :
    State.reset.pending = none ∧ (busyWith 0x01).pending ≠ none := by decide

theorem witness_InputWriteTaintsThePendingCommand :
    isInput (decodeCmd 0x02) ((busyWith 0x02).targetOf 0x004) = true ∧
    isInput (decodeCmd 0x03) ((busyWith 0x03).targetOf 0x2FD) = true ∧
    isInput (decodeCmd 0x04) ((busyWith 0x04).targetOf 0x100) = true := by decide

theorem witness_WriteOfNonInputLeavesThePendingCommand :
    isInput (decodeCmd 0x03) ((busyWith 0x03).targetOf 0x1FE) = false ∧
    (busyWith 0x03).targetOf 0x1FE = .plBuf 254 ∧
    isInput (decodeCmd 0x04) ((busyWith 0x04).targetOf 0x200) = false ∧
    (busyWith 0x04).targetOf 0x200 = .inBuf 0 ∧
    isInput (decodeCmd 0x03) ((busyWith 0x03).targetOf 0x004) = false ∧
    (busyWith 0x03).targetOf 0x004 = .reg .crcDin ∧ regAccess .crcDin = .rw := by decide

theorem witness_CrcUpdateFeedsOneByte :
    State.reset.tainted = false ∧ State.reset.crc = crc8 [] ∧ (busyWith 0x02).tainted = false := by decide

theorem witness_Crc8IsLinear : [0xAA, (0x01 : Byte)].length = [0x55, (0xFF : Byte)].length := by decide

theorem witness_Crc8DetectsEveryBitFlip : 0 < [(0x31 : Byte)].length ∧ 7 < 8 := by decide

/-- IN_LEN = 7 (F-3), and a declared length one too large (F-5). -/
theorem witness_DecodeTooShortReportsLen :
    (loaded [0xAA, 0x80, 0, 0, 0, 0, 0x97]).tainted = false ∧
    min (pairValue (loaded [0xAA, 0x80, 0, 0, 0, 0, 0x97]).inLen) 254 < 8 ∧
    (let s := loaded [0xAA, 0x80, 0, 0, 0, 1, 0, 0x55]
     ¬ min (pairValue s.inLen) s.params.inCap < 8 ∧
      min (pairValue s.inLen) s.params.inCap < 8 + (s.inByte 5).toNat) := by decide

/-- F-11 (start sentinel) and F-9 (end sentinel). -/
theorem witness_DecodeBadSentinelReportsFormat :
    (let s := loaded [0, 0, 0, 0, 0, 0, 0, 0]
     s.tainted = false ∧ 0 = (s.inByte 5).toNat ∧ 8 + 0 ≤ min (pairValue s.inLen) s.params.inCap ∧
      s.inByte 0 ≠ 0xAA) ∧
    (let s := loaded (frameF1.set 12 0x54)
     5 = (s.inByte 5).toNat ∧ 8 + 5 ≤ min (pairValue s.inLen) s.params.inCap ∧ s.inByte 0 = 0xAA ∧
      s.inByte (7 + 5) ≠ 0x55) := by decide

/-- F-1 (right) and F-14d (wrong). -/
theorem witness_DecodeChecksTheChecksum :
    (let s := loaded frameF1
     s.tainted = false ∧ 5 = (s.inByte 5).toNat ∧ 8 + 5 ≤ min (pairValue s.inLen) s.params.inCap ∧
      s.inByte 0 = 0xAA ∧ s.inByte (7 + 5) = 0x55 ∧
      (0xD7 : Byte) = crc8 ((List.range' 1 (5 + 5)).map s.inByte) ∧ 0xD7 = s.inByte (6 + 5)) ∧
    (let s := loaded (frameF1.set 11 0xD6)
     s.inByte (7 + 5) = 0x55 ∧ (0xD7 : Byte) = crc8 ((List.range' 1 (5 + 5)).map s.inByte) ∧
      (0xD7 : Byte) ≠ s.inByte (6 + 5)) ∧
    (after (exec .decode (loaded (List.replicate 8 0x00)))).map (·.result) = some 0x03 := by decide +kernel

/-- F-1 and F-7: the frame, and the frame with bytes after it. -/
theorem witness_DecodeIgnoresBytesOutsideTheFrame :
    (loaded frameF1).tainted = false ∧ (after (exec .decode (loaded frameF1))).isSome = true ∧
    (∀ j < 13, State.inByte { loaded frameF1 with mem := cells inBase (frameF1 ++ [0xEE, 0xEE]) } j =
      (loaded frameF1).inByte j) ∧
    8 + ((loaded frameF1).inByte 5).toNat ≤ min (pairValue (loaded frameF1).inLen) 254 ∧
    8 + ((loaded frameF1).inByte 5).toNat ≤ min (pairValue ⟨23, 0⟩) 254 := by decide +kernel

theorem witness_DecodeTwiceIsDecodeOnce :
    (loaded frameF1).tainted = false ∧ (after (exec .decode (loaded frameF1))).isSome = true := by decide +kernel

/-- F-16a: OK, byte 10 the last payload byte, byte 5 with bit 1 (OK), bit 0 (FORMAT) and bit 7 (LEN) flipped. -/
theorem witness_DecodeDetectsEveryCoveredBitFlip :
    (loaded frameF16).tainted = false ∧
    (after (exec .decode (loaded frameF16))).map (·.result) = some 0x01 ∧
    (1 ≤ 4 ∧ 4 ≤ 4) ∧ 6 ≤ 6 + ((loaded frameF16).inByte 5).toNat ∧
    8 + ((loaded frameF16).inByte 5 ^^^ (1#8 <<< 0)).toNat > 14 ∧
    8 + ((loaded frameF16).inByte 5 ^^^ (1#8 <<< 2)).toNat ≤ 14 ∧ (loaded frameF16).inByte (7 + 2) ≠ 0x55 := by
  decide +kernel

theorem witness_DecodeDetectsEveryChangedSentinel :
    (loaded frameF1).tainted = false ∧ (after (exec .decode (loaded frameF1))).map (·.result) = some 0x01 ∧
    (0xAB : Byte) ≠ 0xAA ∧ (0x54 : Byte) ≠ 0x55 := by decide +kernel

/-- n = 0, and n = OUT_CAP − 8 exactly. -/
theorem witness_EncodeBuildsTheFrame :
    (let s := staged 0x00 []
     s.tainted = false ∧ 0 = pairValue s.txPlen ∧ 8 + 0 ≤ s.params.outCap) ∧
    (let s := { State.reset with txPlen := ⟨0xF6, 0x00⟩ }
     s.tainted = false ∧ 246 = pairValue s.txPlen ∧ 246 ≤ 255 ∧ 8 + 246 ≤ s.params.outCap) := by decide

/-- E-8 (n = 247) and E-9 (n = 256). -/
theorem witness_EncodeTooLongReportsLen :
    (let s := { State.reset with txPlen := ⟨0xF7, 0x00⟩ }
     s.tainted = false ∧ s.params.outCap < 8 + pairValue s.txPlen) ∧
    255 < pairValue ⟨0x00, 0x01⟩ := by decide

/-- E-12: PL_BUF holds two bytes beyond the payload. -/
theorem witness_EncodeReadsOnlyThePayload :
    (let s := staged 0x1D [0x90, 0x10, 0x04]
     s.tainted = false ∧ (after (exec .encode s)).map (·.result) = some 0x01 ∧
      ∀ k < 3, State.plByte { s with mem := cells plBase [0x90, 0x10, 0x04, 0x77, 0x88] } k = s.plByte k) := by
  decide +kernel

/-- At the bound, with capacities of 10: a payload of 2 is framed and one of 3 is not, and a frame of 2 is deframed.
The bound of the defaults is 246 (R11). -/
theorem witness_LargestPayloads :
    Params.assumed.ok ∧ min 255 (Params.assumed.inCap - 8) = 246 ∧
    (let p : Params := { inCap := 10, outCap := 10, base := 0 }
     p.ok ∧ 2 ≤ min 255 (p.inCap - 8) ∧ (loaded []).tainted = false ∧ (staged 0x00 []).tainted = false ∧
      (after (exec .encode { staged 0x46 [0x00, 0x93] with params := p })).map (·.result) = some 0x01 ∧
      (after (exec .encode { staged 0x46 [0x00, 0x93, 0x00] with params := p })).map (·.result) = some 0x02 ∧
      (after (exec .decode { loaded [0xAA, 0x46, 0, 0, 0, 2, 0x00, 0x93, 0xAF, 0x55] with params := p })).map
        (fun t => (t.result, t.rxPlen)) = some (0x01, 0x02)) := by decide +kernel

/-- RT-1: E-4's frame, loaded. -/
theorem witness_DecodeOfEncodeRoundTrip :
    (let s := staged Protocol.errorResponse [0x00, Protocol.subNoAck]
     let u := loaded [0xAA, 0x46, 0, 0, 0, 2, 0x00, 0x93, 0xAF, 0x55]
     s.tainted = false ∧ u.tainted = false ∧
      (after (exec .encode s)).map (fun t =>
        (t.result, pairValue t.txFlen == pairValue u.inLen, decide (pairValue t.txFlen ≤ u.params.inCap),
          t.outBytes 0 10 == u.inBytes 0 10)) = some (0x01, true, true, true)) := by decide +kernel

theorem witness_TaintedCommandLeavesFreeOutputs :
    (taintedWith 0x02).tainted = true ∧ (taintedWith 0x03).tainted = true ∧ (taintedWith 0x04).tainted = true := by
  decide

theorem witness_IllegalCodeCompletesWithIllegalCmd : State.reset.pending = none ∧ 0x05 ≤ (0x05 : Byte).toNat ∧
    0x05 ≤ (0xFF : Byte).toNat := by decide

theorem witness_StepRunsTheDecodedInstruction :
    (let s := { busyWith 0x03 with left := 0 }
     s.pending = some ⟨0x03, false⟩ ∧ s.left = 0 ∧ decode (.cmd8 0x03) = .ok .decode) ∧
    (let s := { busyWith 0x03 with inputs := [.word 0x80004] }
     s.takesInput ∧ decode (.bus20 0x80004) = .ok (.wr 0x000 0x04)) ∧
    (busyWith 0x01).inputs = [] := by decide

/-- The last byte of the window at a base that is not 0, and the addresses on either side of the window. -/
theorem witness_BusCycleReachesItsOffset :
    (let s := { State.reset with params := { inCap := 254, outCap := 254, base := 0x4000 } }
     s.takesInput ∧ 0x47FF = s.params.base + (0x7FF : Offset).toNat ∧ 0x3FFF + 1 ≤ s.params.base ∧
      s.params.base + 0x800 ≤ 0x4800) := by decide

theorem witness_OtherWidthsAreRefused :
    (let s := { State.reset with inputs := [.cycle ⟨.host, 0, 0x7FF, some 0x00⟩] }
     s.takesInput ∧ 0x7FF = s.params.base + (0x7FF : Offset).toNat ∧ 0 ≠ 8 ∧ 16 ≠ 8) := by decide

theorem witness_SecondMasterIsRefused :
    (let s := { State.reset with inputs := [.cycle ⟨.other, 0, 0x000, none⟩] }
     s.takesInput ∧ 0x000 = s.params.base + (0x000 : Offset).toNat) := by decide

/-- A host cycle taken; a cycle outside the window taken; and a due completion while a cycle of 16 bits waits. -/
theorem witness_NoCommandOrAccessStopsTheMachine :
    (let s := { State.reset with inputs := [.cycle ⟨.host, 8, 0x7FF, none⟩] }
     s.takesInput ∧ s.inputs.all (fun i => match i with | .cycle c => c.bits == 8 | _ => false) = true) ∧
    (BusCycle.mk .other 16 0x800 none).addr ≥ State.reset.params.base + 0x800 ∧
    ¬State.takesInput { busyWith 0x03 with left := 0, inputs := [.cycle ⟨.host, 16, 0x000, none⟩] } := by decide

theorem witness_IdleMachineStandsStill : State.reset.pending = none ∧ State.reset.inputs = [] := by decide

theorem witness_PendingCommandOutlastsHostAccesses :
    (let s := { busyWith 0x03 with left := 1, inputs := [.word 0x00200] }
     s.params.ok ∧ s.pending = some ⟨0x03, false⟩ ∧ 0 < s.left ∧ s.inputs ≠ [] ∧
      s.inputs.head? ≠ some .reset ∧ (after (step s)).isSome = true) := by decide

theorem witness_WaitEndsWithTheCommandCompleted :
    (let s := { busyWith 0x03 with inputs := [.wait] }
     s.pending = some ⟨0x03, false⟩ ∧ s.inputs = .wait :: []) := by decide

theorem witness_CommandThenWaitIsTheCommand :
    (let s := { State.reset with inputs := Pseudo.decode.expand }
     s.pending = none ∧ s.inputs = wrReg .cmd 0x03 :: .wait :: []) := by decide

theorem witness_LoadInStoresTheBytesAndTheirNumber :
    (let s := { State.reset with inputs := (Pseudo.loadIn frameF1).expand }
     s.params.ok ∧ s.pending = none ∧ frameF1.length ≤ s.params.inCap ∧
      s.inputs = (Pseudo.loadIn frameF1).expand ++ []) := by decide +kernel

theorem witness_LoadPlStagesTheActionAndThePayload :
    (let s := { State.reset with inputs := (Pseudo.loadPl 0xC0 [0x01, 0x00]).expand }
     s.params.ok ∧ s.pending = none ∧ [(0x01 : Byte), 0x00].length ≤ 255 ∧
      s.inputs = (Pseudo.loadPl 0xC0 [0x01, 0x00]).expand ++ []) := by decide +kernel

theorem witness_EveryStepKeepsTheInvariant : State.reset.Inv :=
  ⟨by decide, List.Pairwise.nil, fun _ h => by simp [State.reset] at h, by decide,
    fun _ h => by simp [State.reset] at h, by decide⟩

theorem witness_CapacitiesAreHardwired : State.reset.params.ok ∧ (after (step State.reset)).isSome = true ∧
    Params.ok { inCap := 8, outCap := 512, base := 0 } := by decide

/-- Untainted; a tainted DECODE that is due; and a tainted ENCODE with an access still to come. -/
theorem witness_FrameLengthStaysLegal :
    State.reset.flenLegal ∧ State.flenLegal { State.reset with txFlen := pairOf 254 } ∧
    (after (step State.reset)).isSome = true ∧
    (let s := { (busyWith 0x03).taint with left := 0 }
     s.tainted = true ∧ s.pending.map (·.op) = some 0x03 ∧ (after (step s)).isSome = true) ∧
    (let s := { (busyWith 0x04).taint with left := 1, inputs := [.word 0x00200] }
     s.tainted = true ∧ ¬(s.left = 0 ∨ s.inputs = []) ∧ (after (step s)).isSome = true) := by decide

/-- A completion that writes RESULT, and a reset that does. -/
theorem witness_ResultWrittenOnlyByCompletionAndReset :
    (after (step { busyWith 0x01 with left := 0 })).map (·.result) = some 0x01 ∧
    (after (step { State.reset with result := 0x02, inputs := [.reset] })).map (·.result) = some 0x00 := by decide

theorem witness_DecodeAndEncodeAgree : (Instr.wr 0x7FF 0xFF).wf = true ∧ (Instr.illegal 0x05).wf = true ∧
    decode (.bus20 0x00100) = .ok (.rd 0x001) := by decide

end Sys2Proof.Tests
end

section
/-! SUPPORT. The capacities bound the payload (00_scope.md R11): which untainted ENCODE and DECODE complete with OK,
and that a frame held in IN_BUF decodes. -/

namespace Sys2Proof.Machine

theorem exec_encode_untainted {s : State} (h : s.tainted = false) : exec .encode s = .next s.enframed :=
  execEncode_untainted h

theorem exec_decode_untainted {s : State} (h : s.tainted = false) : exec .decode s = .next s.deframed :=
  execDecode_untainted h

/-- ENCODE reports OK exactly when the payload fits the format and OUT_BUF (41_framing.md R152). -/
theorem State.enframed_result_ok_iff (s : State) :
    s.enframed.result = 0x01 ↔ pairValue s.txPlen ≤ 255 ∧ 8 + pairValue s.txPlen ≤ s.params.outCap := by
  rcases s.enframed_cases with ⟨hlong, he⟩ | ⟨hmax, hfit, he⟩
  · simp only [maxPayload, frameOverhead] at hlong
    have hr : s.enframed.result ≠ 0x01 := by rw [he]; simp [ResultCode.byte]
    exact iff_of_false hr (by omega)
  · have hr : s.enframed.result = 0x01 := by rw [he]; rfl
    exact iff_of_true hr ⟨hmax, hfit⟩

/-- A DECODE that reports OK found a whole frame with the right checksum, and wrote the action and the length it
declares (41_framing.md R137). -/
theorem State.framed_of_deframed_result_ok {s : State} (h : s.deframed.result = 0x01) :
    s.Framed ∧ crc8 s.inCovered = s.inByte (6 + s.inPayloadLength) ∧
      s.deframed = { s with
        crc := crc8 s.inCovered, rxAction := s.inByte 1, rxPlen := s.inByte 5 }.complete .ok := by
  rcases s.deframed_cases with ⟨-, he⟩ | ⟨-, -, he⟩ | ⟨-, -, he⟩ | hok
  case inr.inr.inr => exact hok
  all_goals
    rw [he] at h
    simp [ResultCode.byte] at h

/-- A DECODE that reports OK leaves in RX_PLEN a length that fits IN_BUF with the rest of its frame. -/
theorem State.rxPlen_le_of_deframed_result_ok {s : State} (h : s.deframed.result = 0x01) :
    8 + s.deframed.rxPlen.toNat ≤ s.params.inCap := by
  obtain ⟨hframed, -, he⟩ := State.framed_of_deframed_result_ok h
  have hplen : s.deframed.rxPlen.toNat = s.inPayloadLength := by rw [he]; rfl
  calc 8 + s.deframed.rxPlen.toNat = frameOverhead + s.inPayloadLength := by rw [hplen]; rfl
    _ ≤ s.inLength := hframed.fits
    _ ≤ s.params.inCap := min_le_right _ _

/-! ## A frame held in IN_BUF decodes -/

/-- IN_BUF holds the frame of an action and a payload, and `L` covers it (41_framing.md R131). -/
structure State.HoldsFrame (s : State) (action : Byte) (payload : List Byte) : Prop where
  short : payload.length ≤ 255
  fits : 8 + payload.length ≤ s.inLength
  bytes : ∀ i, i < 8 + payload.length → (frameOf action payload)[i]? = some (s.inByte i)

section
variable {s : State} {action : Byte} {payload : List Byte}

theorem State.HoldsFrame.inByte_five (h : s.HoldsFrame action payload) :
    s.inByte 5 = BitVec.ofNat 8 payload.length := by
  have hb := h.bytes 5 (by omega)
  rw [show 5 = 1 + 4 from rfl, frameOf_getElem?_body action payload (by omega)] at hb
  exact (Option.some.inj hb).symm

theorem State.HoldsFrame.inPayloadLength (h : s.HoldsFrame action payload) :
    s.inPayloadLength = payload.length := by
  have := h.short
  rw [State.inPayloadLength, h.inByte_five, BitVec.toNat_ofNat, Nat.mod_eq_of_lt (by omega)]

theorem State.HoldsFrame.inCovered (h : s.HoldsFrame action payload) :
    s.inCovered = frameBody action payload := by
  rw [s.inCovered_eq_map, h.inPayloadLength]
  refine List.ext_getElem (by simp [length_frameBody]) fun i hi hi' => ?_
  rw [length_frameBody] at hi'
  have hb := h.bytes (1 + i) (by omega)
  rw [frameOf_getElem?_body action payload hi', List.getElem?_eq_getElem] at hb
  simpa using (Option.some.inj hb).symm

/-- A held frame passes the checks up to the checksum (41_framing.md R131). -/
theorem State.HoldsFrame.framed (h : s.HoldsFrame action payload) : s.Framed where
  fits := by rw [h.inPayloadLength]; exact h.fits
  starts := (Option.some.inj (h.bytes 0 (by omega))).symm
  ends := by
    have hb := h.bytes (7 + payload.length) (by omega)
    rw [frameOf_getElem?_end] at hb
    rw [h.inPayloadLength]
    exact (Option.some.inj hb).symm

theorem State.HoldsFrame.checksum (h : s.HoldsFrame action payload) :
    crc8 s.inCovered = s.inByte (6 + s.inPayloadLength) := by
  have hb := h.bytes (6 + payload.length) (by omega)
  rw [frameOf_getElem?_checksum] at hb
  rw [h.inCovered, h.inPayloadLength]
  exact Option.some.inj hb

/-- A held frame decodes with OK and gives back its action, its length and its CRC (41_framing.md R142). -/
theorem State.HoldsFrame.deframed (h : s.HoldsFrame action payload) :
    s.deframed = { s with
      crc := crc8 (frameBody action payload), rxAction := action,
      rxPlen := BitVec.ofNat 8 payload.length }.complete .ok := by
  have haction : s.inByte 1 = action := by
    have hb := h.bytes (1 + 0) (by omega)
    rw [frameOf_getElem?_body action payload (by omega)] at hb
    exact (Option.some.inj hb).symm
  rcases s.deframed_cases with ⟨hlen, -⟩ | ⟨-, hsent, -⟩ | ⟨-, hsum, -⟩ | ⟨-, -, he⟩
  · exact absurd h.framed.fits (by omega)
  · exact absurd ⟨h.framed.starts, h.framed.ends⟩ (not_and_or.2 hsent)
  · exact absurd h.checksum hsum
  · rw [he, h.inCovered, haction, h.inByte_five]

end

/-! ## Every length is reached -/

/-- Reset with the given parameters, then a frame loaded into IN_BUF and its length into IN_LEN. -/
def frameLoaded (p : Params) (action : Byte) (payload : List Byte) : State :=
  State.storeBytes { State.reset with params := p, inLen := pairOf (8 + payload.length) } inBase
    (frameOf action payload)

theorem frameLoaded_holdsFrame {p : Params} {action : Byte} {payload : List Byte}
    (hshort : payload.length ≤ 255) (hfits : 8 + payload.length ≤ p.inCap) :
    (frameLoaded p action payload).HoldsFrame action payload where
  short := hshort
  fits := by
    have hlen : pairValue (frameLoaded p action payload).inLen = 8 + payload.length :=
      pairValue_pairOf (by omega)
    rw [State.inLength, hlen]
    exact le_min le_rfl hfits
  bytes := fun i hi => by
    have hi' : i < (frameOf action payload).length := by rwa [length_frameOf]
    rw [State.inByte, frameLoaded, State.byteAt_storeBytes, if_pos (by omega), Nat.add_sub_cancel_left,
      List.getElem?_eq_getElem hi', List.getD_eq_getElem _ _ hi']

/-- Settles O35: ENCODE's bound both ways and DECODE's bound from what each can do, and every length at or below the
bound by the frame of that many zeros, loaded after reset. -/
theorem largestPayloads : Obligations.LargestPayloads := by
  refine ⟨fun s t ⟨_, hout, _⟩ hs => ⟨fun ht => ?_, fun ht hok => ?_⟩, fun p n ⟨⟨hin, _⟩, _⟩ hn => ?_⟩
  · obtain rfl := Host.Outcome.next.inj ((exec_encode_untainted hs).symm.trans ht)
    rw [s.enframed_result_ok_iff, le_min_iff, Nat.le_sub_iff_add_le' hout]
  · obtain rfl := Host.Outcome.next.inj ((exec_decode_untainted hs).symm.trans ht)
    have hcap := State.rxPlen_le_of_deframed_result_ok hok
    have hbyte := s.deframed.rxPlen.isLt
    omega
  · have hlen : (List.replicate n (0x00 : Byte)).length = n := List.length_replicate
    have hheld : (frameLoaded p 0x00 (List.replicate n 0x00)).HoldsFrame 0x00 (List.replicate n 0x00) :=
      frameLoaded_holdsFrame (by omega) (by omega)
    refine ⟨frameLoaded p 0x00 (List.replicate n 0x00), _, rfl, rfl, exec_decode_untainted rfl, ?_, ?_⟩
    · rw [hheld.deframed]; rfl
    · rw [hheld.deframed, State.complete_rxPlen, hlen, BitVec.toNat_ofNat, Nat.mod_eq_of_lt (by omega)]

end Sys2Proof.Machine
end

section
/-! SUPPORT. What a host access leaves in each field: the frames of `hostRead` and `hostWrite`, and what a write can do
to the pending command and to memory. -/

namespace Sys2Proof.Machine

/-- A host read sets the byte answered and the count of free values, and nothing else (20_memory.md R59). -/
theorem State.hostRead_frame (s : State) (off : Offset) :
    s.hostRead off = { s with answer := (s.hostRead off).answer, draws := (s.hostRead off).draws } := by
  rcases s.hostRead_cases off with ⟨-, h⟩ | ⟨-, h⟩ <;> rw [h]

/-- A host write sets RW registers, memory, the pending command and the model's own count of draws and schedule, and
nothing else (20_memory.md R53). -/
theorem State.hostWrite_frame (s : State) (off : Offset) (v : Byte) :
    s.hostWrite off v = { s with
      crcDin := (s.hostWrite off v).crcDin, txAction := (s.hostWrite off v).txAction,
      inLen := (s.hostWrite off v).inLen, txPlen := (s.hostWrite off v).txPlen,
      mem := (s.hostWrite off v).mem, pending := (s.hostWrite off v).pending,
      left := (s.hostWrite off v).left, latencies := (s.hostWrite off v).latencies,
      draws := (s.hostWrite off v).draws } := by
  rcases s.hostWrite_cases off v with ⟨-, -, h⟩ | ⟨-, -, h⟩ | ⟨-, -, h⟩ | ⟨-, -, h⟩ <;> rw [h]
  · rfl
  · rw [State.writeTarget_frame]; rfl
  · rw [State.writeTarget_frame]

section
variable (s : State) (off : Offset) (v : Byte)

@[simp] theorem State.hostRead_result : (s.hostRead off).result = s.result := by rw [State.hostRead_frame]
@[simp] theorem State.hostRead_crc : (s.hostRead off).crc = s.crc := by rw [State.hostRead_frame]
@[simp] theorem State.hostRead_rxAction : (s.hostRead off).rxAction = s.rxAction := by rw [State.hostRead_frame]
@[simp] theorem State.hostRead_rxPlen : (s.hostRead off).rxPlen = s.rxPlen := by rw [State.hostRead_frame]
@[simp] theorem State.hostRead_txFlen : (s.hostRead off).txFlen = s.txFlen := by rw [State.hostRead_frame]
@[simp] theorem State.hostRead_params : (s.hostRead off).params = s.params := by rw [State.hostRead_frame]
@[simp] theorem State.hostRead_mem : (s.hostRead off).mem = s.mem := by rw [State.hostRead_frame]
@[simp] theorem State.hostRead_pending : (s.hostRead off).pending = s.pending := by rw [State.hostRead_frame]
@[simp] theorem State.hostRead_epoch : (s.hostRead off).epoch = s.epoch := by rw [State.hostRead_frame]
@[simp] theorem State.hostRead_left : (s.hostRead off).left = s.left := by rw [State.hostRead_frame]

@[simp] theorem State.hostWrite_result : (s.hostWrite off v).result = s.result := by rw [State.hostWrite_frame]
@[simp] theorem State.hostWrite_crc : (s.hostWrite off v).crc = s.crc := by rw [State.hostWrite_frame]
@[simp] theorem State.hostWrite_rxAction : (s.hostWrite off v).rxAction = s.rxAction := by rw [State.hostWrite_frame]
@[simp] theorem State.hostWrite_rxPlen : (s.hostWrite off v).rxPlen = s.rxPlen := by rw [State.hostWrite_frame]
@[simp] theorem State.hostWrite_txFlen : (s.hostWrite off v).txFlen = s.txFlen := by rw [State.hostWrite_frame]
@[simp] theorem State.hostWrite_params : (s.hostWrite off v).params = s.params := by rw [State.hostWrite_frame]
@[simp] theorem State.hostWrite_epoch : (s.hostWrite off v).epoch = s.epoch := by rw [State.hostWrite_frame]

@[simp] theorem State.writeTarget_pending (t : Target) : (s.writeTarget v t).pending = s.pending := by
  rw [State.writeTarget_frame]
@[simp] theorem State.writeTarget_left (t : Target) : (s.writeTarget v t).left = s.left := by
  rw [State.writeTarget_frame]
@[simp] theorem State.writeTarget_draws (t : Target) : (s.writeTarget v t).draws = s.draws := by
  rw [State.writeTarget_frame]
@[simp] theorem State.writeReg_mem (r : Reg) : (s.writeReg v r).mem = s.mem := by rw [State.writeReg_frame]

theorem State.draws_le_hostRead : s.draws ≤ (s.hostRead off).draws := by
  rcases s.hostRead_cases off with ⟨-, h⟩ | ⟨-, h⟩ <;> rw [h]
  exact Nat.le_succ _

theorem State.draws_le_hostWrite : s.draws ≤ (s.hostWrite off v).draws := by
  rcases s.hostWrite_cases off v with ⟨-, -, h⟩ | ⟨-, -, h⟩ | ⟨-, -, h⟩ | ⟨-, -, h⟩ <;> rw [h]
  · rw [State.start_draws]; split_ifs <;> omega
  · simp
  · simp

/-- What a host write makes of the pending command: nothing, a start from idle, or a taint of the command whose input
it hits (70_reset_and_hazards.md R210 to R212). -/
theorem State.hostWrite_pending_cases :
    (s.hostWrite off v).pending = s.pending ∨
    (s.pending = none ∧ (s.hostWrite off v).pending = some { op := v, tainted := false }) ∨
    (∃ p, s.pending = some p ∧ isInput (decodeCmd p.op) (s.targetOf off) = true ∧
      (s.hostWrite off v).pending = some { op := p.op, tainted := true }) := by
  rcases s.hostWrite_cases off v with ⟨-, hidle, h⟩ | ⟨-, -, h⟩ | ⟨-, hz, h⟩ | ⟨-, -, h⟩ <;> rw [h]
  · exact .inr (.inl ⟨hidle, rfl⟩)
  · exact .inl rfl
  · cases hp : s.pending with
    | none => simp [State.inputHazard, hp] at hz
    | some p => exact .inr (.inr ⟨p, rfl, by simpa [State.inputHazard, hp] using hz, by simp [hp]⟩)
  · exact .inl (by simp)

/-- While busy a host write leaves the schedule of the pending command as it is (log 1). -/
theorem State.hostWrite_left_of_busy (hbusy : s.pending ≠ none) : (s.hostWrite off v).left = s.left := by
  rcases s.hostWrite_cases off v with ⟨-, hidle, -⟩ | ⟨-, -, h⟩ | ⟨-, -, h⟩ | ⟨-, -, h⟩
  · exact absurd hidle hbusy
  all_goals simp [h]

/-- The window offsets the host can store at: PL_BUF and IN_BUF (20_memory.md R53). -/
def hostStores (p : Params) (a : Nat) : Prop :=
  (plBase ≤ a ∧ a < plBase + plCap) ∨ (inBase ≤ a ∧ a < inBase + p.inCap)

theorem State.writeTarget_mem_cases :
    (s.writeTarget v (s.targetOf off)).mem = s.mem ∨
    (hostStores s.params off.toNat ∧
      (s.writeTarget v (s.targetOf off)).mem = Memory.write s.mem off.toNat v) := by
  cases ht : s.targetOf off with
  | reg r => exact .inl (s.writeReg_mem v r)
  | plBuf i =>
    obtain ⟨hi, ho⟩ := target_plBuf.1 ht
    exact .inr ⟨.inl (by omega), by rw [ho]; rfl⟩
  | inBuf i =>
    obtain ⟨hi, ho⟩ := target_inBuf.1 ht
    exact .inr ⟨.inr (by omega), by rw [ho]; rfl⟩
  | outBuf i => exact .inl rfl
  | reserved => exact .inl rfl

/-- What a host write makes of memory: nothing, or one byte of PL_BUF or IN_BUF stored at its own offset. -/
theorem State.hostWrite_mem_cases :
    (s.hostWrite off v).mem = s.mem ∨
    (hostStores s.params off.toNat ∧ (s.hostWrite off v).mem = Memory.write s.mem off.toNat v) := by
  rcases s.hostWrite_cases off v with ⟨-, -, h⟩ | ⟨-, -, h⟩ | ⟨-, -, h⟩ | ⟨-, -, h⟩ <;> rw [h]
  · exact .inl rfl
  · exact .inl rfl
  · exact s.writeTarget_mem_cases off v
  · exact s.writeTarget_mem_cases off v

/-- No host write reaches OUT_BUF, at capacities in their range (20_memory.md R53). -/
theorem State.hostWrite_outByte (hp : s.params.ok) (i : Nat) : (s.hostWrite off v).outByte i = s.outByte i := by
  rcases s.hostWrite_mem_cases off v with hm | ⟨hstores, hm⟩
  · exact State.byteAt_congr hm (s.hostWrite_epoch off v) _
  · have hne : outBase + i ≠ off.toNat := by
      simp only [hostStores, plBase, plCap, inBase, outBase, Params.ok] at *; omega
    simp only [State.outByte, State.byteAt, hm, State.hostWrite_epoch, Memory.lookup_write_other _ v hne]

end

/-- A host write of a read-only register leaves the state as it is (10_state.md section 2). -/
theorem exec_wr_readOnly (s : State) (v : Byte) {off : Offset} {r : Reg} (ho : off.toNat = regOffset r)
    (hr : regAccess r = .r) : exec (.wr off v) s = .next s := by
  have ht : s.targetOf off = .reg r := State.targetOf_reg r ho
  have hcmd : s.targetOf off ≠ .reg .cmd := by
    rw [ht]; rintro ⟨⟩; exact absurd hr (by decide)
  have hhazard : s.inputHazard (.reg r) = false :=
    s.inputHazard_eq_false (by simp [hr])
  have hkept : s.writeReg v r = s := s.writeReg_readOnly v (by simp [hr])
  rw [exec, execWr, s.hostWrite_other v hcmd, ht, hhazard]
  exact congrArg Host.Outcome.next hkept

end Sys2Proof.Machine
end

section
/-! SUPPORT. Everything a completion step can do, whichever command it completes (10_state.md R26). -/

namespace Sys2Proof.Machine

/-- `u` is `s` with outputs of the command `i` written and nothing else: what a completion step does before it
reports (30_encoding.md R84). -/
structure State.WritesOutputs (s : State) (i : Instr) (u : State) : Prop where
  frame : u = { s with
    crc := u.crc, rxAction := u.rxAction, rxPlen := u.rxPlen, txFlen := u.txFlen, mem := u.mem }
  txFlen : i ≠ .encode → u.txFlen = s.txFlen
  mem : u.mem = s.mem ∨
    ∃ image : List Byte, image.length = s.params.outCap ∧ u.mem = Memory.writeList s.mem outBase image

/-- `t` is `s` after a completion step of the command `i`: outputs written, a legal code reported, nothing pending. -/
structure State.Completes (s : State) (i : Instr) (t : State) : Prop where
  frame : t = { s with
    crc := t.crc, rxAction := t.rxAction, rxPlen := t.rxPlen, txFlen := t.txFlen, mem := t.mem,
    result := t.result, pending := none, draws := t.draws }
  result : t.result ∈ (legalCodes i).map ResultCode.byte
  draws : s.draws ≤ t.draws
  txFlen : i ≠ .encode → t.txFlen = s.txFlen
  mem : t.mem = s.mem ∨
    ∃ image : List Byte, image.length = s.params.outCap ∧ t.mem = Memory.writeList s.mem outBase image

theorem State.Completes.pending {s t : State} {i : Instr} (h : s.Completes i t) : t.pending = none := by
  rw [h.frame]

theorem State.Completes.params {s t : State} {i : Instr} (h : s.Completes i t) : t.params = s.params := by
  rw [h.frame]

theorem State.Completes.epoch {s t : State} {i : Instr} (h : s.Completes i t) : t.epoch = s.epoch := by
  rw [h.frame]

section
variable (s : State) (i : Instr)

theorem State.writesOutputs_self : s.WritesOutputs i s := ⟨rfl, fun _ => rfl, .inl rfl⟩

theorem State.writesOutputs_crc (c : Byte) : s.WritesOutputs i { s with crc := c } :=
  ⟨rfl, fun _ => rfl, .inl rfl⟩

theorem State.writesOutputs_rx (c action plen : Byte) :
    s.WritesOutputs i { s with crc := c, rxAction := action, rxPlen := plen } :=
  ⟨rfl, fun _ => rfl, .inl rfl⟩

theorem State.writesOutputs_tx {image : List Byte} (hlen : image.length = s.params.outCap) (c : Byte) (flen : Pair) :
    s.WritesOutputs .encode { s.storeBytes outBase image with crc := c, txFlen := flen } :=
  ⟨rfl, fun hne => absurd rfl hne, .inr ⟨image, hlen, rfl⟩⟩

end

section
variable {s u : State} {i : Instr}

/-- Outputs written and then a legal code reported is a completion. -/
theorem State.WritesOutputs.complete (h : s.WritesOutputs i u) {c : ResultCode} (hc : c ∈ legalCodes i) :
    s.Completes i (u.complete c) where
  frame := by rw [h.frame]; rfl
  result := List.mem_map_of_mem hc
  draws := by rw [h.frame]; exact le_rfl
  txFlen := h.txFlen
  mem := h.mem

/-- Outputs written and then any legal code reported is a completion. -/
theorem State.WritesOutputs.completeFreely (h : s.WritesOutputs i u) (hi : legalCodes i ≠ []) :
    s.Completes i (u.completeFreely (legalCodes i)) where
  frame := by rw [h.frame]; rfl
  result := List.mem_map_of_mem (pickCode_mem hi _)
  draws := by rw [h.frame]; exact Nat.le_succ _
  txFlen := h.txFlen
  mem := h.mem

end

theorem State.completes_crcInit (s : State) : s.Completes .crcInit ({ s with crc := 0x00 }.complete .ok) :=
  (s.writesOutputs_crc _ _).complete (by simp [legalCodes])

theorem State.completes_crcUpdated (s : State) : s.Completes .crcUpdate s.crcUpdated :=
  (s.writesOutputs_crc _ _).complete (by simp [legalCodes])

theorem State.completes_crcUpdatedTainted (s : State) : s.Completes .crcUpdate s.crcUpdatedTainted :=
  (s.writesOutputs_crc _ _).completeFreely (by simp [legalCodes])

theorem State.completes_deframed (s : State) : s.Completes .decode s.deframed := by
  rcases s.deframed_cases with ⟨-, h⟩ | ⟨-, -, h⟩ | ⟨-, -, h⟩ | ⟨-, -, h⟩ <;> rw [h]
  · exact (s.writesOutputs_self _).complete (by simp [legalCodes])
  · exact (s.writesOutputs_self _).complete (by simp [legalCodes])
  · exact (s.writesOutputs_crc _ _).complete (by simp [legalCodes])
  · exact (s.writesOutputs_rx _ _ _ _).complete (by simp [legalCodes])

theorem State.completes_deframedTainted (s : State) : s.Completes .decode s.deframedTainted :=
  (s.writesOutputs_rx _ _ _ _).completeFreely (by simp [legalCodes])

theorem State.completes_enframed (s : State) : s.Completes .encode s.enframed := by
  rcases s.enframed_cases with ⟨-, h⟩ | ⟨-, hfit, h⟩ <;> rw [h]
  · exact (s.writesOutputs_self _).complete (by simp [legalCodes])
  · exact (s.writesOutputs_tx (State.length_outImage hfit) _ _).complete (by simp [legalCodes])

theorem State.completes_enframedTainted (s : State) : s.Completes .encode s.enframedTainted :=
  (s.writesOutputs_tx (by simp) _ _).completeFreely (by simp [legalCodes])

/-- The completion step of every command code is a completion: what `exec` of a decoded command can do. -/
theorem State.completes_of_exec {s t : State} {op : Byte} (h : exec (decodeCmd op) s = .next t) :
    s.Completes (decodeCmd op) t := by
  rcases decodeCmd_cases op with ⟨-, hi⟩ | ⟨-, hi⟩ | ⟨-, hi⟩ | ⟨-, hi⟩ | ⟨-, hi⟩ <;> rw [hi] at h ⊢ <;>
    obtain rfl := Host.Outcome.next.inj h
  · exact s.completes_crcInit
  · split_ifs
    · exact s.completes_crcUpdatedTainted
    · exact s.completes_crcUpdated
  · split_ifs
    · exact s.completes_deframedTainted
    · exact s.completes_deframed
  · split_ifs
    · exact s.completes_enframedTainted
    · exact s.completes_enframed
  · exact (s.writesOutputs_self _).complete (by simp [legalCodes])

end Sys2Proof.Machine
end

section
/-! SUPPORT. The invariant, and each kind of step that keeps it. -/

namespace Sys2Proof.Machine

theorem ResultCode.byte_le_five (c : ResultCode) : c.byte.toNat ≤ 5 := by cases c <;> decide

/-- A command that a host write can taint is one of the three with inputs (30_encoding.md R84). -/
theorem takesInputs_of_isInput {op : Byte} {t : Target} (h : isInput (decodeCmd op) t = true) : takesInputs op := by
  rcases decodeCmd_cases op with ⟨-, hi⟩ | ⟨hop, -⟩ | ⟨hop, -⟩ | ⟨hop, -⟩ | ⟨-, hi⟩
  · rw [hi] at h; simp [isInput] at h
  · exact .inl hop
  · exact .inr (.inl hop)
  · exact .inr (.inr hop)
  · rw [hi] at h; simp [isInput] at h

section
variable {s t : State}

/-- The invariant is about six fields, and of the draws it asks only that they do not fall behind. -/
theorem State.Inv.of_eq (h : s.Inv) (hparams : t.params = s.params) (hmem : t.mem = s.mem)
    (hresult : t.result = s.result) (hpending : t.pending = s.pending) (hepoch : t.epoch = s.epoch)
    (hdraws : s.draws ≤ t.draws) : t.Inv where
  params_ok := hparams ▸ h.params_ok
  mem_wf := hmem ▸ h.mem_wf
  mem_in_buffers := by rw [hmem, hparams]; exact h.mem_in_buffers
  result_legal := hresult ▸ h.result_legal
  taint_has_input := hpending ▸ h.taint_has_input
  epoch_past := hepoch ▸ h.epoch_past.trans_le hdraws

theorem State.Inv.withInputs (h : s.Inv) (rest : List Input) : (s.withInputs rest).Inv :=
  h.of_eq rfl rfl rfl rfl rfl le_rfl

theorem State.Inv.atAccess (h : s.Inv) (rest : List Input) : (s.atAccess rest).Inv :=
  h.of_eq rfl rfl rfl rfl rfl le_rfl

theorem State.Inv.hostRead (h : s.Inv) (off : Offset) : (s.hostRead off).Inv :=
  h.of_eq (by simp) (by simp) (by simp) (by simp) (by simp) (s.draws_le_hostRead off)

/-- A host write stores in PL_BUF or IN_BUF, and taints only a command whose input it hit. -/
theorem State.Inv.hostWrite (h : s.Inv) (off : Offset) (v : Byte) : (s.hostWrite off v).Inv where
  params_ok := by rw [State.hostWrite_params]; exact h.params_ok
  mem_wf := by
    rcases s.hostWrite_mem_cases off v with hm | ⟨-, hm⟩ <;> rw [hm]
    · exact h.mem_wf
    · exact Memory.write_wf h.mem_wf _ v
  mem_in_buffers := fun c hc => by
    rw [State.hostWrite_params]
    rcases s.hostWrite_mem_cases off v with hm | ⟨hstores, hm⟩ <;> rw [hm] at hc
    · exact h.mem_in_buffers c hc
    · rcases Memory.key_of_mem_write hc with hkey | hold
      · rw [hkey]; exact hstores.elim .inl fun hin => .inr (.inl hin)
      · exact h.mem_in_buffers c hold
  result_legal := by rw [State.hostWrite_result]; exact h.result_legal
  taint_has_input := fun q hq htaint => by
    rcases s.hostWrite_pending_cases off v with he | ⟨-, he⟩ | ⟨p, -, hinput, he⟩ <;> rw [he] at hq
    · exact h.taint_has_input q hq htaint
    · obtain rfl := Option.some.inj hq
      simp at htaint
    · obtain rfl := Option.some.inj hq
      exact takesInputs_of_isInput hinput
  epoch_past := by
    rw [State.hostWrite_epoch]; exact h.epoch_past.trans_le (s.draws_le_hostWrite off v)

/-- A completion stores in OUT_BUF alone, reports a legal code and leaves nothing pending. -/
theorem State.Inv.completes {i : Instr} (h : s.Inv) (hc : s.Completes i t) : t.Inv where
  params_ok := hc.params ▸ h.params_ok
  mem_wf := by
    rcases hc.mem with hm | ⟨image, -, hm⟩ <;> rw [hm]
    · exact h.mem_wf
    · exact Memory.writeList_wf h.mem_wf outBase image
  mem_in_buffers := fun c hcell => by
    rw [hc.params]
    rcases hc.mem with hm | ⟨image, hlen, hm⟩ <;> rw [hm] at hcell
    · exact h.mem_in_buffers c hcell
    · rcases Memory.key_of_mem_writeList hcell with hkey | hold
      · rw [hlen] at hkey; exact .inr (.inr hkey)
      · exact h.mem_in_buffers c hold
  result_legal := by
    obtain ⟨code, -, hcode⟩ := List.mem_map.1 hc.result
    rw [← hcode]; exact code.byte_le_five
  taint_has_input := fun p hp => by simp [hc.pending] at hp
  epoch_past := hc.epoch ▸ h.epoch_past.trans_le hc.draws

/-- A state with no buffer byte written, RESULT 0x00 and nothing pending meets the invariant. -/
theorem State.Inv.of_cleared (hparams : s.params.ok) (hmem : s.mem = []) (hresult : s.result = 0x00)
    (hpending : s.pending = none) (hdraws : s.epoch < s.draws) : s.Inv where
  params_ok := hparams
  mem_wf := hmem ▸ List.Pairwise.nil
  mem_in_buffers := by simp [hmem]
  result_legal := by simp [hresult]
  taint_has_input := by simp [hpending]
  epoch_past := hdraws

/-- Reset keeps the parameters, and the draw it fills the buffers with is past (70_reset_and_hazards.md R201). -/
theorem State.Inv.applyReset (h : s.Inv) : s.applyReset.Inv :=
  .of_cleared h.params_ok rfl rfl rfl (Nat.lt_succ_self _)

end

/-- The state after reset meets the invariant (10_state.md R42). -/
theorem State.reset_inv : State.reset.Inv :=
  .of_cleared (by decide) rfl rfl rfl (by decide)

/-- Settles O50, by the kind of step: a completion, a host write, a host read, nothing, an input skipped, or reset. -/
theorem everyStepKeepsTheInvariant : Obligations.EveryStepKeepsTheInvariant := by
  intro s t hs hstep
  rcases step_cases hstep with ⟨p, -, -, hexec⟩ | ⟨-, ⟨off, v, rest, rfl⟩ | ⟨off, rest, rfl⟩ | rfl | ⟨rest, rfl⟩ |
    ⟨rest, -, rfl⟩⟩
  · exact hs.completes (State.completes_of_exec hexec)
  · exact (hs.atAccess rest).hostWrite off v
  · exact (hs.atAccess rest).hostRead off
  · exact hs
  · exact hs.withInputs rest
  · exact (hs.withInputs rest).applyReset

/-- Settles O51. -/
theorem resetMeetsTheInvariant : Obligations.ResetMeetsTheInvariant := State.reset_inv

end Sys2Proof.Machine
end

section
/-! SUPPORT. What the registers keep through a step: the pending command and its outputs, the capacities, TX_FLEN and
RESULT. -/

namespace Sys2Proof.Machine

/-- While busy a host write leaves the pending command pending, its taint never cleared (70_reset_and_hazards.md
R211, R212). -/
theorem State.hostWrite_pending_of_busy {s : State} {p : Pending} (hp : s.pending = some p) (off : Offset) (v : Byte) :
    ∃ b, (s.hostWrite off v).pending = some { op := p.op, tainted := b } ∧ (p.tainted = true → b = true) := by
  rcases s.hostWrite_pending_cases off v with he | ⟨hidle, -⟩ | ⟨q, hq, -, he⟩
  · exact ⟨p.tainted, he.trans hp, id⟩
  · simp [hp] at hidle
  · obtain rfl := Option.some.inj (hp.symm.trans hq)
    exact ⟨true, he, fun _ => rfl⟩

/-- Settles O45: with an access still to wait for and an input that is not reset, a step is a host access or skips
an input, and neither writes an output. -/
theorem pendingCommandOutlastsHostAccesses : Obligations.PendingCommandOutlastsHostAccesses := by
  intro s t p hparams hp hleft hinputs hreset hstep
  rcases step_cases hstep with ⟨-, -, hdue, -⟩ | ⟨-, ⟨off, v, rest, rfl⟩ | ⟨off, rest, rfl⟩ | rfl | ⟨rest, rfl⟩ |
    ⟨rest, hr, -⟩⟩
  · exact absurd hdue (not_or.2 ⟨hleft.ne', hinputs⟩)
  · have hl : ((s.atAccess rest).hostWrite off v).left = s.left - 1 :=
      (s.atAccess rest).hostWrite_left_of_busy off v (by simp [hp])
    exact ⟨State.hostWrite_pending_of_busy (s := s.atAccess rest) hp off v, by omega, by omega,
      by simp, by simp, by simp, by simp, by simp, fun i _ => (s.atAccess rest).hostWrite_outByte off v hparams i⟩
  · have hl : ((s.atAccess rest).hostRead off).left = s.left - 1 := (s.atAccess rest).hostRead_left off
    exact ⟨⟨p.tainted, by simpa using hp, id⟩, by omega, by omega,
      by simp, by simp, by simp, by simp, by simp, fun i _ => State.byteAt_congr (by simp) (by simp) _⟩
  · exact ⟨⟨p.tainted, hp, id⟩, le_rfl, Nat.le_succ _, rfl, rfl, rfl, rfl, rfl, fun _ _ => rfl⟩
  · exact ⟨⟨p.tainted, hp, id⟩, le_rfl, Nat.le_succ _, rfl, rfl, rfl, rfl, rfl, fun _ _ => rfl⟩
  · exact absurd hr (hreset rest)

/-- The parameters are hardwired: no step changes them (10_state.md R34, R35). -/
theorem step_params {s t : State} (h : step s = .next t) : t.params = s.params := by
  rcases step_cases h with ⟨p, -, -, hexec⟩ | ⟨-, ⟨off, v, rest, rfl⟩ | ⟨off, rest, rfl⟩ | rfl | ⟨rest, rfl⟩ |
    ⟨rest, -, rfl⟩⟩
  · exact (State.completes_of_exec hexec).params
  all_goals simp

/-- Settles O52: no step changes the parameters, a pair in range reads as its number, and a read-only register ignores
writes. -/
theorem capacitiesAreHardwired : Obligations.CapacitiesAreHardwired := by
  refine ⟨fun s t => step_params, fun s ⟨⟨_, hin⟩, ⟨_, hout⟩⟩ => ⟨?_, ?_⟩, fun s v => ⟨?_, ?_, ?_, ?_⟩⟩
  · exact pairValue_pairOf (by omega)
  · exact pairValue_pairOf (by omega)
  · exact exec_wr_readOnly s v (r := .inCapLo) rfl rfl
  · exact exec_wr_readOnly s v (r := .inCapHi) rfl rfl
  · exact exec_wr_readOnly s v (r := .outCapLo) rfl rfl
  · exact exec_wr_readOnly s v (r := .outCapHi) rfl rfl

/-- Only code 0x04 is ENCODE (30_encoding.md R82). -/
theorem eq_of_decodeCmd_eq_encode {op : Byte} (h : decodeCmd op = .encode) : op = 0x04 := by
  rcases decodeCmd_cases op with ⟨-, hi⟩ | ⟨-, hi⟩ | ⟨-, hi⟩ | ⟨hop, -⟩ | ⟨-, hi⟩
  case inr.inr.inr.inl => exact hop
  all_goals
    rw [hi] at h
    simp at h

/-- Legality is about TX_FLEN and OUT_CAP alone. -/
theorem State.flenLegal.of_eq {s t : State} (h : s.flenLegal) (hflen : t.txFlen = s.txFlen)
    (hparams : t.params = s.params) : t.flenLegal := by
  rw [State.flenLegal, hflen, hparams]
  exact h

theorem State.flenLegal_of_zero {s : State} (h : s.txFlen = ⟨0x00, 0x00⟩) : s.flenLegal :=
  .inl (by rw [h]; rfl)

/-- ENCODE on untouched inputs leaves a legal TX_FLEN: the old one, or the length of a frame that fits OUT_BUF
(41_framing.md R156, R157). -/
theorem State.flenLegal.enframed {s : State} (h : s.flenLegal) : s.enframed.flenLegal := by
  rcases s.enframed_cases with ⟨-, he⟩ | ⟨hmax, hfit, he⟩ <;> rw [he]
  · exact h.of_eq rfl rfl
  · simp only [maxPayload, frameOverhead] at hmax hfit
    have hval : pairValue (pairOf (8 + pairValue s.txPlen)) = 8 + pairValue s.txPlen := pairValue_pairOf (by omega)
    refine .inr ?_
    simp only [State.complete_txFlen, State.complete_params, State.storeBytes_params, frameOverhead, hval]
    omega

/-- Settles O53: among the steps only an ENCODE's completion and reset write TX_FLEN, and an untainted ENCODE leaves
the length of a frame that fits. -/
theorem frameLengthStaysLegal : Obligations.FrameLengthStaysLegal := by
  refine ⟨State.flenLegal_of_zero rfl, fun s t hs hexempt hstep => ?_⟩
  rcases step_cases hstep with ⟨p, hp, hdue, hexec⟩ | ⟨-, ⟨off, v, rest, rfl⟩ | ⟨off, rest, rfl⟩ | rfl | ⟨rest, rfl⟩ |
    ⟨rest, -, rfl⟩⟩
  · by_cases henc : decodeCmd p.op = .encode
    · have huntainted : s.tainted = false := Bool.eq_false_iff.2 fun ht =>
        hexempt ⟨ht, ⟨p, hp, eq_of_decodeCmd_eq_encode henc⟩, hdue⟩
      rw [henc, exec_encode_untainted huntainted] at hexec
      obtain rfl := Host.Outcome.next.inj hexec
      exact hs.enframed
    · have hc := State.completes_of_exec hexec
      exact hs.of_eq (hc.txFlen henc) hc.params
  · exact hs.of_eq (by simp) (by simp)
  · exact hs.of_eq (by simp) (by simp)
  · exact hs
  · exact hs.of_eq rfl rfl
  · exact State.flenLegal_of_zero rfl

/-- Settles O54: a completion reports one of its legal codes, reset clears RESULT, and no other step writes it. -/
theorem resultWrittenOnlyByCompletionAndReset : Obligations.ResultWrittenOnlyByCompletionAndReset := by
  intro s t hstep hchanged
  rcases step_cases hstep with ⟨p, hp, hdue, hexec⟩ | ⟨-, ⟨off, v, rest, rfl⟩ | ⟨off, rest, rfl⟩ | rfl | ⟨rest, rfl⟩ |
    ⟨rest, hr, rfl⟩⟩
  · have hc := State.completes_of_exec hexec
    exact .inl ⟨p, hp, hc.pending, hdue, hc.result⟩
  · exact absurd (by simp) hchanged
  · exact absurd (by simp) hchanged
  · exact absurd rfl hchanged
  · exact absurd rfl hchanged
  · exact .inr ⟨rest, hr, rfl⟩

end Sys2Proof.Machine
end

section
/-! SUPPORT. The state after reset, STATUS, and what a step runs. -/

namespace Sys2Proof.Machine

/-- Settles O1: each register by its value in `State.reset`, and each buffer byte because reset lists none. -/
theorem resetLeavesEveryRegisterAtItsSpecValue : Obligations.ResetLeavesEveryRegisterAtItsSpecValue := by
  have hbytes : ∀ a, State.reset.byteAt a = Config.freeByte State.reset.epoch a := fun _ => rfl
  exact ⟨rfl, rfl, rfl, rfl, rfl, rfl, rfl, rfl, rfl, rfl, rfl, rfl, rfl, rfl, hbytes⟩

/-- STATUS is 0x00 when idle and 0x01 when busy (10_state.md R23). -/
theorem State.statusByte_eq (s : State) : s.statusByte = if s.pending = none then 0x00 else 0x01 := by
  cases hp : s.pending <;> simp [State.statusByte, State.busy, hp]

/-- A read of STATUS answers STATUS, whatever is pending (70_reset_and_hazards.md R213). -/
theorem exec_rd_status (s : State) : exec (.rd 0x001) s = .next { s with answer := some s.statusByte } := by
  have ht : s.targetOf 0x001 = .reg .status := State.targetOf_reg .status rfl
  have hread : s.hostRead 0x001 = { s with answer := some s.statusByte } := by
    rw [State.hostRead, ht, s.outputHazard_status]; rfl
  exact congrArg Host.Outcome.next hread

/-- Settles O3: STATUS is no output of any command, and it is read-only. -/
theorem statusReadsBusyExactly : Obligations.StatusReadsBusyExactly := by
  refine ⟨rfl, fun s => ⟨?_, fun v => exec_wr_readOnly s v (r := .status) rfl rfl⟩⟩
  rw [exec_rd_status, s.statusByte_eq]

/-- The pending command's completion step, where it is due (10_state.md R26). -/
theorem step_completion {s : State} {p : Pending} (hp : s.pending = some p) (hdue : s.left = 0 ∨ s.inputs = []) :
    step s = exec (decodeCmd p.op) s := by
  rw [step, fetch_completion hp hdue]

/-- The host's next word runs in the state with that word taken (20_memory.md R61). -/
theorem step_word {s : State} {w : BusWord} {rest : List Input} {i : Instr} (hin : s.inputs = .word w :: rest)
    (htakes : s.takesInput) (hi : decode (.bus20 w) = .ok i) : step s = exec i (s.atAccess rest) := by
  have hnext : fetch s = fetchInput s :=
    fetch_eq_fetchInput (htakes.imp_right fun hleft => ⟨hleft, by simp [hin]⟩)
  have hfetch : fetchInput s = .run i (s.atAccess rest) := by
    simp [fetchInput, hin, fetchWord, hi]
  rw [step, hnext, hfetch]

/-- Settles O39, its two halves the two lemmas above. -/
theorem stepRunsTheDecodedInstruction : Obligations.StepRunsTheDecodedInstruction := by
  refine ⟨fun s p i hp hdue hi => ?_, fun s w rest i hin htakes hi => step_word hin htakes hi⟩
  obtain rfl := Except.ok.inj hi
  exact step_completion hp hdue

/-- Settles O44: nothing is pending, so the step takes the next input, and there is none. -/
theorem idleMachineStandsStill : Obligations.IdleMachineStandsStill := by
  intro s hidle hnone
  have hfetch : fetchInput s = .settle s := by simp [fetchInput, hnone]
  rw [step, fetch_eq_fetchInput (.inl hidle), hfetch]

end Sys2Proof.Machine
end

section
/-! SUPPORT. Host reads that are no output of the pending command: the byte each target answers (20_memory.md R53). -/

namespace Sys2Proof.Machine

/-- Away from the pending command's outputs a read answers the byte of its target (20_memory.md R53). -/
theorem exec_rd_exact {s : State} {off : Offset} (h : s.outputHazard (s.targetOf off) = false) :
    exec (.rd off) s = .next { s with answer := some (s.readTarget (s.targetOf off)) } := by
  rcases s.hostRead_cases off with ⟨hz, -⟩ | ⟨-, hread⟩
  · simp [h] at hz
  · exact congrArg Host.Outcome.next hread

section
variable (s : State) {off : Offset}

theorem State.readTarget_reg {own : Offset} (r : Reg) (hown : own.toNat = regOffset r) (h : off = own) :
    s.readTarget (s.targetOf off) = s.readReg r := by
  rw [h, State.targetOf_reg r hown]; rfl

theorem State.readTarget_plBuf {i : Nat} (hi : i < plCap) (h : off.toNat = plBase + i) :
    s.readTarget (s.targetOf off) = s.byteAt (plBase + i) := by
  rw [State.targetOf, target_plBuf.2 ⟨hi, h⟩]; rfl

theorem State.readTarget_inBuf {i : Nat} (hi : i < s.params.inCap) (h : off.toNat = inBase + i) :
    s.readTarget (s.targetOf off) = s.byteAt (inBase + i) := by
  rw [State.targetOf, target_inBuf.2 ⟨hi, h⟩]; rfl

theorem State.readTarget_outBuf (hp : s.params.ok) {i : Nat} (hi : i < s.params.outCap)
    (h : off.toNat = outBase + i) : s.readTarget (s.targetOf off) = s.byteAt (outBase + i) := by
  rw [State.targetOf, (target_outBuf hp).2 ⟨hi, h⟩]; rfl

/-- The host's last answer is no byte of the window (log 7). -/
theorem State.readTarget_answer (b : Option Byte) (t : Target) :
    State.readTarget { s with answer := b } t = s.readTarget t := by
  cases t with
  | reg r => cases r <;> rfl
  | plBuf i => rfl
  | inBuf i => rfl
  | outBuf i => rfl
  | reserved => rfl

end

/-- Settles O4, the byte of each register and of each buffer by the target its offset names. -/
theorem hostReadReturnsTheByteOfTheMap : Obligations.HostReadReturnsTheByteOfTheMap := by
  intro s off hp hz
  exact ⟨_, exec_rd_exact hz,
    s.readTarget_reg .cmd rfl, s.readTarget_reg .status rfl, s.readTarget_reg .result rfl,
    s.readTarget_reg .crc rfl, s.readTarget_reg .crcDin rfl, s.readTarget_reg .rxAction rfl,
    s.readTarget_reg .rxPlen rfl, s.readTarget_reg .txAction rfl,
    s.readTarget_reg .inLenLo rfl, s.readTarget_reg .inLenHi rfl,
    s.readTarget_reg .txPlenLo rfl, s.readTarget_reg .txPlenHi rfl,
    s.readTarget_reg .txFlenLo rfl, s.readTarget_reg .txFlenHi rfl,
    s.readTarget_reg .inCapLo rfl, s.readTarget_reg .inCapHi rfl,
    s.readTarget_reg .outCapLo rfl, s.readTarget_reg .outCapHi rfl,
    fun _ => s.readTarget_plBuf, fun _ => s.readTarget_inBuf, fun _ => s.readTarget_outBuf hp⟩

/-- Away from the pending command's outputs a second read of the same offset changes nothing (20_memory.md R59). -/
theorem exec_rd_twice {s : State} {off : Offset} (h : s.outputHazard (s.targetOf off) = false) :
    exec (.rd off) (s.hostRead off) = .next (s.hostRead off) := by
  have hread : s.hostRead off = { s with answer := some (s.readTarget (s.targetOf off)) } :=
    Host.Outcome.next.inj (exec_rd_exact h)
  have hagain := exec_rd_exact (s := { s with answer := some (s.readTarget (s.targetOf off)) }) (off := off) h
  rw [State.readTarget_answer] at hagain
  rw [hread]
  exact hagain

/-- Settles O7: a read sets two fields, and no byte of the window depends on the answer. -/
theorem hostReadHasNoSideEffect : Obligations.HostReadHasNoSideEffect := by
  intro s off
  exact ⟨s.hostRead off, rfl, s.hostRead_frame off, State.byteAt_congr (by simp) (by simp), exec_rd_twice⟩

end Sys2Proof.Machine
end

section
/-! SUPPORT. Host writes: where one stores, where it is ignored, and what it leaves unchanged (20_memory.md R53,
R59). -/

namespace Sys2Proof.Machine

/-- Away from CMD and from the pending command's inputs a write stores in its target, and that is all. -/
theorem exec_wr_exact {s : State} {off : Offset} {t : Target} (v : Byte) (ht : s.targetOf off = t)
    (hcmd : t ≠ .reg .cmd) (hz : s.inputHazard t = false) :
    exec (.wr off v) s = .next (s.writeTarget v t) := by
  subst ht
  have hwrite : s.hostWrite off v = s.writeTarget v (s.targetOf off) := by
    rw [s.hostWrite_other v hcmd, hz]; rfl
  exact congrArg Host.Outcome.next hwrite

/-- Settles O10: each RW register's offset names it, and its write sets its own byte. -/
theorem writeStoresTheRegisterByte : Obligations.WriteStoresTheRegisterByte := by
  intro s v
  exact ⟨exec_wr_exact v (State.targetOf_reg .crcDin rfl) (by decide),
    exec_wr_exact v (State.targetOf_reg .txAction rfl) (by decide),
    exec_wr_exact v (State.targetOf_reg .inLenLo rfl) (by decide),
    exec_wr_exact v (State.targetOf_reg .inLenHi rfl) (by decide),
    exec_wr_exact v (State.targetOf_reg .txPlenLo rfl) (by decide),
    exec_wr_exact v (State.targetOf_reg .txPlenHi rfl) (by decide)⟩

/-- A store changes memory, and of memory the one byte. -/
theorem State.store_sets_only (s : State) (a : Nat) (v : Byte) :
    s.store a v = { s with mem := (s.store a v).mem } ∧ (s.store a v).byteAt a = v ∧
      ∀ b, b ≠ a → (s.store a v).byteAt b = s.byteAt b :=
  ⟨rfl, s.byteAt_store_same a v, fun _ => s.byteAt_store_other v⟩

/-- Settles O11: the offset names the buffer byte, and the write is a store at it. -/
theorem writeStoresTheBufferByte : Obligations.WriteStoresTheBufferByte := by
  intro s v i ⟨⟨_, hcap⟩, _⟩
  constructor
  · intro hi hz
    have ho : (BitVec.ofNat 11 (0x100 + i)).toNat = plBase + i := Nat.mod_eq_of_lt (by omega)
    exact ⟨_, exec_wr_exact v (target_plBuf.2 ⟨hi, ho⟩) (by simp) hz, s.store_sets_only _ v⟩
  · intro hi hz
    have ho : (BitVec.ofNat 11 (0x200 + i)).toNat = inBase + i := Nat.mod_eq_of_lt (by omega)
    exact ⟨_, exec_wr_exact v (target_inBuf.2 ⟨hi, ho⟩) (by simp) hz, s.store_sets_only _ v⟩

/-! ## Where a write is ignored -/

theorem exec_wr_reserved {s : State} {off : Offset} (v : Byte) (h : s.targetOf off = .reserved) :
    exec (.wr off v) s = .next s :=
  exec_wr_exact v h (by simp) (s.inputHazard_eq_false (by simp))

theorem exec_wr_outBuf {s : State} {off : Offset} {i : Nat} (v : Byte) (h : s.targetOf off = .outBuf i) :
    exec (.wr off v) s = .next s :=
  exec_wr_exact v h (by simp) (s.inputHazard_eq_false (by simp))

theorem exec_rd_reserved {s : State} {off : Offset} (h : s.targetOf off = .reserved) :
    exec (.rd off) s = .next { s with answer := some 0x00 } := by
  rw [exec_rd_exact (h ▸ s.outputHazard_reserved), h]; rfl

/-- STATUS has no bit but BUSY (10_state.md R23). -/
theorem State.statusByte_bit (s : State) {k : Nat} (hk : 1 ≤ k) : s.statusByte.getLsbD k = false := by
  have hk0 : k ≠ 0 := Nat.one_le_iff_ne_zero.1 hk
  unfold State.statusByte
  split_ifs
  · simp [BitVec.getLsbD_one, hk0]
  · exact BitVec.getLsbD_zero

/-- Settles O12: each range the regions table reserves holds no register and no buffer byte. -/
theorem reservedOffsetsReadZeroAndIgnoreWrites : Obligations.ReservedOffsetsReadZeroAndIgnoreWrites := by
  intro s off ⟨⟨_, hin⟩, ⟨_, hout⟩⟩
  refine ⟨fun hrange => ?_, fun k => s.statusByte_bit⟩
  have ht : s.targetOf off = .reserved := target_reserved.2 (by
    simp only [plBase, plCap, inBase, outBase]
    omega)
  exact ⟨exec_rd_reserved ht, fun v => exec_wr_reserved v ht⟩

/-- The registers of access R by their offsets (20_memory.md R52). -/
theorem regAt_readOnly {off : Nat}
    (h : off ∈ [0x001, 0x002, 0x003, 0x005, 0x006, 0x00C, 0x00D, 0x00E, 0x00F, 0x010, 0x011]) :
    ∃ r, off = regOffset r ∧ regAccess r = .r := by
  have hmap : ∀ o ∈ [0x001, 0x002, 0x003, 0x005, 0x006, 0x00C, 0x00D, 0x00E, 0x00F, 0x010, 0x011],
      (regAt o).map regAccess = some .r := by decide
  obtain ⟨r, hr, hacc⟩ := Option.map_eq_some_iff.1 (hmap off h)
  exact ⟨r, regAt_eq_some.1 hr, hacc⟩

/-- Settles O13: the offset is a read-only register's, or a byte of OUT_BUF. -/
theorem writesOfReadOnlyBytesHaveNoEffect : Obligations.WritesOfReadOnlyBytesHaveNoEffect := by
  intro s off v hp h
  rcases h with hreg | ⟨hlo, hhi⟩
  · obtain ⟨r, ho, hr⟩ := regAt_readOnly hreg
    exact exec_wr_readOnly s v ho hr
  · have ht : s.targetOf off = .outBuf (off.toNat - outBase) :=
      (target_outBuf hp).2 (by simp only [outBase]; omega)
    exact exec_wr_outBuf v ht

/-! ## What a write leaves unchanged -/

/-- A register write leaves every other register as it is (20_memory.md R56). -/
theorem State.readReg_writeReg_other (s : State) (v : Byte) {q r : Reg} (h : q ≠ r) :
    (s.writeReg v q).readReg r = s.readReg r := by
  cases q
  case crcDin | txAction | inLenLo | inLenHi | txPlenLo | txPlenHi =>
    cases r <;> first | rfl | exact absurd rfl h
  all_goals rfl

/-- A write of a target leaves every register that is not that target as it is. -/
theorem State.readReg_writeTarget_other (s : State) (v : Byte) {t : Target} {r : Reg} (h : t ≠ .reg r) :
    (s.writeTarget v t).readReg r = s.readReg r := by
  cases t with
  | reg q => exact s.readReg_writeReg_other v fun hq => h (congrArg Target.reg hq)
  | plBuf i => cases r <;> rfl
  | inBuf i => cases r <;> rfl
  | outBuf i => rfl
  | reserved => rfl

section
variable (s : State) {off : Offset} (v : Byte)

/-- Of the registers a command's start shows in STATUS alone. -/
theorem State.readReg_start {r : Reg} (hr : r ≠ .status) : (s.start v).readReg r = s.readReg r := by
  cases r
  case status => exact absurd rfl hr
  all_goals rfl

theorem State.readReg_taint {r : Reg} (hr : r ≠ .status) : s.taint.readReg r = s.readReg r := by
  cases r
  case status => exact absurd rfl hr
  all_goals rfl

/-- A host write leaves every register but STATUS as it is, unless it is at the register's own offset. -/
theorem State.readReg_hostWrite_other {own : Offset} (r : Reg) (hown : own.toNat = regOffset r)
    (hr : r ≠ .status) (h : off ≠ own) : (s.hostWrite off v).readReg r = s.readReg r := by
  have hne : s.targetOf off ≠ .reg r := State.targetOf_ne_reg hown h
  rcases s.hostWrite_cases off v with ⟨-, -, he⟩ | ⟨-, -, he⟩ | ⟨-, -, he⟩ | ⟨-, -, he⟩ <;> rw [he]
  · exact s.readReg_start v hr
  · rw [State.readReg_taint _ hr, s.readReg_writeTarget_other v hne]
  · exact s.readReg_writeTarget_other v hne

@[simp] theorem State.hostWrite_answer : (s.hostWrite off v).answer = s.answer := by rw [State.hostWrite_frame]
@[simp] theorem State.hostWrite_inputs : (s.hostWrite off v).inputs = s.inputs := by rw [State.hostWrite_frame]
@[simp] theorem State.writeTarget_latencies (t : Target) : (s.writeTarget v t).latencies = s.latencies := by
  rw [State.writeTarget_frame]

/-- Only a write of CMD touches the schedule, the draws or the pending command's code. -/
theorem State.hostWrite_schedule_of_ne_cmd (h : s.targetOf off ≠ .reg .cmd) :
    (s.hostWrite off v).left = s.left ∧ (s.hostWrite off v).latencies = s.latencies ∧
      (s.hostWrite off v).draws = s.draws ∧ (s.hostWrite off v).pending.map (·.op) = s.pending.map (·.op) := by
  rcases s.hostWrite_cases off v with ⟨hcmd, -⟩ | ⟨hcmd, -⟩ | ⟨-, -, he⟩ | ⟨-, -, he⟩
  · exact absurd hcmd h
  · exact absurd hcmd h
  · simp [he, Function.comp_def]
  · simp [he]

/-- No buffer byte changes but the one at the write's own offset. -/
theorem State.byteAt_hostWrite_other {a : Nat} (h : a ≠ off.toNat) :
    (s.hostWrite off v).byteAt a = s.byteAt a := by
  rcases s.hostWrite_mem_cases off v with hm | ⟨-, hm⟩
  · exact State.byteAt_congr hm (s.hostWrite_epoch off v) a
  · simp only [State.byteAt, hm, State.hostWrite_epoch, Memory.lookup_write_other _ v h]

/-- An offset the host can store at names a byte of PL_BUF or of IN_BUF. -/
theorem State.targetOf_of_hostStores {s : State} (h : hostStores s.params off.toNat) :
    (∃ i, s.targetOf off = .plBuf i) ∨ ∃ i, s.targetOf off = .inBuf i := by
  rcases h with ⟨hlo, hhi⟩ | ⟨hlo, hhi⟩
  · exact .inl ⟨off.toNat - plBase, target_plBuf.2 (by omega)⟩
  · exact .inr ⟨off.toNat - inBase, target_inBuf.2 (by omega)⟩

/-- A write of no byte of PL_BUF or IN_BUF changes no buffer byte. -/
theorem State.byteAt_hostWrite_of_no_store (hpl : ∀ i, s.targetOf off ≠ .plBuf i)
    (hin : ∀ i, s.targetOf off ≠ .inBuf i) (a : Nat) : (s.hostWrite off v).byteAt a = s.byteAt a := by
  rcases s.hostWrite_mem_cases off v with hm | ⟨hstores, -⟩
  · exact State.byteAt_congr hm (s.hostWrite_epoch off v) a
  · rcases State.targetOf_of_hostStores hstores with ⟨i, ht⟩ | ⟨i, ht⟩
    · exact absurd ht (hpl i)
    · exact absurd ht (hin i)

end

/-- Settles O17: the fields no write sets, each RW register by its own offset, the schedule by CMD's, and memory. -/
theorem writeFrame : Obligations.WriteFrame := by
  intro s off v
  refine ⟨s.hostWrite off v, rfl, by simp, by simp, by simp, by simp, by simp, by simp, by simp, by simp, by simp,
    s.readReg_hostWrite_other v .crcDin rfl (by decide), s.readReg_hostWrite_other v .txAction rfl (by decide),
    s.readReg_hostWrite_other v .inLenLo rfl (by decide), s.readReg_hostWrite_other v .inLenHi rfl (by decide),
    s.readReg_hostWrite_other v .txPlenLo rfl (by decide), s.readReg_hostWrite_other v .txPlenHi rfl (by decide),
    fun h => s.hostWrite_schedule_of_ne_cmd v (State.targetOf_ne_reg (own := 0x000) rfl h),
    fun a => s.byteAt_hostWrite_other v, s.byteAt_hostWrite_of_no_store v⟩

end Sys2Proof.Machine
end

section
/-! SUPPORT. Raw bus cycles: what a step makes of one (20_memory.md R50, R57). -/

namespace Sys2Proof.Machine

section
variable {s : State} {c : BusCycle} {rest : List Input} {off : Offset}

/-- The next step fetches the bus cycle that is the next input. -/
theorem fetch_cycle (hin : s.inputs = .cycle c :: rest) (htakes : s.takesInput) :
    fetch s = fetchCycle s c rest := by
  have hnext : fetch s = fetchInput s :=
    fetch_eq_fetchInput (htakes.imp_right fun hleft => ⟨hleft, by simp [hin]⟩)
  rw [hnext, fetchInput, hin]

/-- An 8-bit cycle of the host in the window is the access at its offset (20_memory.md R50). -/
theorem fetchCycle_access (hhost : c.master = .host) (hbits : c.bits = 8) (haddr : c.addr = s.params.base + off.toNat) :
    fetchCycle s c rest = .run (cycleAccess off c.data) (s.atAccess rest) := by
  have hoff : offsetAt s.params c.addr = some off := haddr ▸ offsetAt_busAddress s.params off
  simp [fetchCycle, touchesWindow_of_addr haddr, hhost, hbits, hoff]

/-- A cycle of the host in the window is refused by the name of its width, where that is not 8 bits (20_memory.md
R57). -/
theorem fetchCycle_width (hhost : c.master = .host) (hbits : c.bits ≠ 8) (haddr : c.addr = s.params.base + off.toNat) :
    fetchCycle s c rest = .refuse (.accessWidth c.bits) := by
  simp [fetchCycle, touchesWindow_of_addr haddr, hhost, hbits]

/-- A cycle that ends below the window or begins above it is skipped (log 14). -/
theorem fetchCycle_outside (hout : c.addr + c.span ≤ s.params.base ∨ s.params.base + 0x800 ≤ c.addr) :
    fetchCycle s c rest = .settle (s.withInputs rest) := by
  have htouch : ¬touchesWindow s.params c = true := by rw [touchesWindow_iff]; omega
  rw [fetchCycle, if_neg htouch]

end

/-- Settles O40: the cycle's fetch in the window, with and without a byte to write, and outside it. -/
theorem busCycleReachesItsOffset : Obligations.BusCycleReachesItsOffset := by
  intro s c rest hin htakes
  refine ⟨fun off hhost hbits haddr => ⟨fun v hdata => ?_, fun hdata => ?_⟩, fun hout => ?_⟩
  · rw [step, fetch_cycle hin htakes, fetchCycle_access hhost hbits haddr, hdata]; rfl
  · rw [step, fetch_cycle hin htakes, fetchCycle_access hhost hbits haddr, hdata]; rfl
  · rw [step, fetch_cycle hin htakes, fetchCycle_outside hout]; rfl

/-- Settles O41: the cycle's fetch in the window, at any other width. -/
theorem otherWidthsAreRefused : Obligations.OtherWidthsAreRefused := by
  intro s c rest off hin htakes haddr hhost hbits
  rw [step, fetch_cycle hin htakes, fetchCycle_width hhost hbits haddr]

end Sys2Proof.Machine
end

section
/-! SUPPORT. The decoder and the encoder both ways (30_encoding.md R82, R83, R100), and the operand table (R84). -/

namespace Sys2Proof

/-- A word with bit 19 set is the write word of its own fields. -/
theorem busWrite_of_fields {w : BusWord} (h : w.getLsbD 19 = true) :
    busWrite (w.extractLsb' 8 11) (w.extractLsb' 0 8) = w := by
  refine BitVec.eq_of_getLsbD_eq fun i hi => ?_
  rw [busWrite_bit]
  split_ifs with hbyte hoff
  · simp [hbyte]
  · simp [hoff, show 8 + (i - 8) = i by omega]
  · obtain rfl : i = 19 := by omega
    exact h.symm

/-- A word with bit 19 and bits 7:0 clear is the read word of its offset. -/
theorem busRead_of_fields {w : BusWord} (h : w.getLsbD 19 = false) (hbyte : w.extractLsb' 0 8 = 0) :
    busRead (w.extractLsb' 8 11) = w := by
  refine BitVec.eq_of_getLsbD_eq fun i hi => ?_
  rw [busRead_bit]
  split_ifs with hlow hoff
  · have hbit := congrArg (·.getLsbD i) hbyte
    simpa [hlow] using hbit.symm
  · simp [hoff, show 8 + (i - 8) = i by omega]
  · obtain rfl : i = 19 := by omega
    exact h.symm

/-- What a bus word can decode to: the write of its fields, the read of its offset, or nothing (log 9). -/
theorem decodeBus_cases (w : BusWord) :
    (w.getLsbD 19 = true ∧ decodeBus w = .ok (.wr (w.extractLsb' 8 11) (w.extractLsb' 0 8))) ∨
    (w.getLsbD 19 = false ∧ w.extractLsb' 0 8 = 0 ∧ decodeBus w = .ok (.rd (w.extractLsb' 8 11))) ∨
    (w.getLsbD 19 = false ∧ w.extractLsb' 0 8 ≠ 0 ∧ decodeBus w = .error (.readWordWithData w)) := by
  unfold decodeBus
  split_ifs with hbit hbyte
  · exact .inl ⟨hbit, rfl⟩
  · exact .inr (.inl ⟨Bool.eq_false_iff.2 hbit, hbyte, rfl⟩)
  · exact .inr (.inr ⟨Bool.eq_false_iff.2 hbit, hbyte, rfl⟩)

/-- Every well-formed instruction is decoded from its own word, whatever its row. -/
theorem decode_encode (i : Instr) : i.wf = true → decode (encode i) = .ok i :=
  match i with
  | .crcInit => Laws.RoundTrip.crcInit
  | .crcUpdate => Laws.RoundTrip.crcUpdate
  | .decode => Laws.RoundTrip.decode
  | .encode => Laws.RoundTrip.encode
  | .illegal op => Laws.RoundTrip.illegal op
  | .wr off v => Laws.RoundTrip.wr off v
  | .rd off => Laws.RoundTrip.rd off

/-- A command code decodes to a well-formed command whose code it is. -/
theorem encode_decodeCmd (op : Byte) : (decodeCmd op).wf = true ∧ encode (decodeCmd op) = .cmd8 op := by
  rcases decodeCmd_cases op with ⟨rfl, hi⟩ | ⟨rfl, hi⟩ | ⟨rfl, hi⟩ | ⟨rfl, hi⟩ | ⟨hop, hi⟩ <;> rw [hi]
  case inr.inr.inr.inr => exact ⟨by rw [Instr.wf, hop]; rfl, rfl⟩
  all_goals exact ⟨rfl, rfl⟩

/-- A bus word that decodes is the word of the access it decodes to. -/
theorem encode_decodeBus {w : BusWord} {i : Instr} (h : decodeBus w = .ok i) : i.wf = true ∧ encode i = .bus20 w := by
  rcases decodeBus_cases w with ⟨hbit, hd⟩ | ⟨hbit, hbyte, hd⟩ | ⟨-, -, hd⟩ <;> rw [hd] at h
  · obtain rfl := Except.ok.inj h
    exact ⟨rfl, congrArg CodeWord.bus20 (busWrite_of_fields hbit)⟩
  · obtain rfl := Except.ok.inj h
    exact ⟨rfl, congrArg CodeWord.bus20 (busRead_of_fields hbit hbyte)⟩
  · simp at h

/-- A bus word is rejected exactly when it is a read word with data bits (log 9). -/
theorem decodeBus_error_iff (w : BusWord) :
    (∃ e, decodeBus w = .error e) ↔ w.getLsbD 19 = false ∧ w.extractLsb' 0 8 ≠ 0#8 := by
  rcases decodeBus_cases w with ⟨hbit, hd⟩ | ⟨-, hbyte, hd⟩ | ⟨hbit, hbyte, hd⟩ <;> rw [hd]
  · simp [hbit]
  · simp [hbyte]
  · exact iff_of_true ⟨_, rfl⟩ ⟨hbit, hbyte⟩

/-- Settles O56, from the round trip of each row and of each kind of word. -/
theorem decodeAndEncodeAgree : Obligations.DecodeAndEncodeAgree := by
  refine ⟨decode_encode, fun w i h => ?_, decodeBus_error_iff⟩
  cases w with
  | cmd8 op =>
    obtain rfl := Except.ok.inj h
    exact encode_decodeCmd op
  | bus20 w => exact encode_decodeBus h

/-- Settles O55, by running the decoder on each word. -/
theorem writtenOutWordsDecode : Obligations.WrittenOutWordsDecode := by
  unfold Obligations.WrittenOutWordsDecode
  decide

end Sys2Proof

namespace Sys2Proof.Machine

/-- Settles O8: each command's row of `isOutput`, ENCODE's by the kind of target. -/
theorem outputsOfEachCommand : Obligations.OutputsOfEachCommand := by
  intro t
  refine ⟨by simp [isOutput, or_comm], by simp [isOutput, or_comm], ?_, ?_⟩
  · simp only [isOutput, Bool.or_eq_true, beq_iff_eq]
    tauto
  · cases t with
    | reg r =>
      simp only [isOutput, Bool.or_eq_true, beq_iff_eq, Target.reg.injEq, reduceCtorEq, exists_false]
      tauto
    | plBuf i | inBuf i | outBuf i | reserved => simp [isOutput]

/-- Settles O9: each command's row of `isInput`, DECODE's and ENCODE's by the kind of target. -/
theorem inputsOfEachCommand : Obligations.InputsOfEachCommand := by
  intro t
  refine ⟨rfl, fun _ => rfl, by simp [isInput], ?_, ?_⟩
  · cases t <;> simp [isInput]
  · cases t <;> simp [isInput, or_assoc]

/-- A code above the four is an illegal command's, and so is 0x00 (30_encoding.md R83). -/
theorem decodeCmd_illegal_of_range {op : Byte} (h : op = 0x00 ∨ 0x05 ≤ op.toNat) : decodeCmd op = .illegal op := by
  refine decodeCmd_illegal ?_
  rcases h with rfl | h
  · rfl
  · have hle : ∀ code ∈ commandCodes, code.toNat ≤ 4 := by decide
    have hne : op ∉ commandCodes := fun hmem => absurd (hle op hmem) (by omega)
    simpa using hne

/-- Idle, a write of CMD starts the command written, whatever its code (70_reset_and_hazards.md R210). -/
theorem exec_wr_cmd_idle {s : State} (hidle : s.pending = none) (op : Byte) :
    exec (.wr 0x000 op) s = .next (s.start op) := by
  have ht : s.targetOf 0x000 = .reg .cmd := State.targetOf_reg .cmd rfl
  have hstart : s.hostWrite 0x000 op = s.start op := by
    rw [s.hostWrite_cmd op ht, State.writeCmd, State.busy, hidle]; rfl
  exact congrArg Host.Outcome.next hstart

/-- Settles O38: the code is none of the four, its completion reports ILLEGAL_CMD, and its write starts it. -/
theorem illegalCodeCompletesWithIllegalCmd : Obligations.IllegalCodeCompletesWithIllegalCmd :=
  ⟨fun _ h => congrArg Except.ok (decodeCmd_illegal_of_range h), fun _ _ => rfl,
    fun op s hidle => ⟨s.start op, exec_wr_cmd_idle hidle op, rfl⟩⟩

end Sys2Proof.Machine
end

section
/-! SUPPORT. Runs of the machine through host programs (30_encoding.md R101): WAIT, a command and its WAIT, and the
loads of the buffers. -/

namespace Sys2Proof.Machine

/-- A run of any machine takes its first step and goes on. -/
theorem run_succ_of_step (M : Host.Core) {s t : M.State} (h : M.step s = .next t) (k : Nat) :
    M.run (k + 1) s = M.run k t := by
  rw [Host.Core.run, h]

theorem run_succ {s t : State} (h : step s = .next t) (k : Nat) : core.run (k + 1) s = core.run k t :=
  run_succ_of_step core h k

/-- Every instruction has a next state (60_exceptions.md R170). -/
theorem exec_next (i : Instr) (s : State) : ∃ t, exec i s = .next t := by
  cases i <;> exact ⟨_, rfl⟩

/-! ## WAIT -/

section
variable {s : State} {p : Pending} {rest : List Input}

/-- WAIT polls STATUS, and stays the next input while STATUS reads BUSY. -/
theorem step_wait (hin : s.inputs = .wait :: rest) (htakes : s.takesInput) :
    step s = .next { s.atAccess (if s.busy then s.inputs else rest) with answer := some s.statusByte } := by
  have hnext : fetch s = fetchInput s :=
    fetch_eq_fetchInput (htakes.imp_right fun hleft => ⟨hleft, by simp [hin]⟩)
  have hfetch : fetchInput s = fetchWait s rest := by rw [fetchInput, hin]
  rw [step, hnext, hfetch]
  exact exec_rd_status _

/-- A poll while the pending command is not yet due: it answers BUSY and brings the completion one access nearer. -/
theorem step_wait_busy (hp : s.pending = some p) (hin : s.inputs = .wait :: rest) (hleft : 0 < s.left) :
    step s = .next { s with left := s.left - 1, answer := some 0x01 } := by
  have hbusy : s.busy = true := by simp [State.busy, hp]
  rw [step_wait hin (.inr hleft), hbusy, State.statusByte, hbusy]; rfl

/-- The last poll: nothing is pending, so it answers 0x00 and WAIT is taken. -/
theorem step_wait_idle (hidle : s.pending = none) (hin : s.inputs = .wait :: rest) :
    step s = .next { s.atAccess rest with answer := some 0x00 } := by
  have hbusy : s.busy = false := by simp [State.busy, hidle]
  rw [step_wait hin (.inl hidle), hbusy, State.statusByte, hbusy]; rfl

/-- The polls before the completion step leave everything as it is but the answer and the count of accesses. -/
theorem run_polls (k : Nat) (hp : s.pending = some p) (hin : s.inputs = .wait :: rest) :
    ∃ a, core.run (s.left + k) s = core.run k { s with left := 0, answer := a } := by
  induction hleft : s.left generalizing s with
  | zero =>
    refine ⟨s.answer, ?_⟩
    rw [Nat.zero_add, ← hleft]
  | succ n ih =>
    have hstep := step_wait_busy hp hin (by omega)
    rw [hleft, Nat.add_sub_cancel] at hstep
    rw [Nat.add_right_comm, run_succ hstep]
    exact ih (s := { s with left := n, answer := some 0x01 }) hp hin rfl

/-- WAIT on a pending command runs its completion step once, between the polls (70_reset_and_hazards.md R216). -/
theorem run_wait (hp : s.pending = some p) (hin : s.inputs = .wait :: rest) :
    ∃ a w, exec (decodeCmd p.op) { s with left := 0, answer := a } = .next w ∧
      core.run (s.left + 2) s = .next { w.atAccess rest with answer := some 0x00 } := by
  obtain ⟨a, hpolls⟩ := run_polls 2 hp hin
  obtain ⟨w, hw⟩ := exec_next (decodeCmd p.op) { s with left := 0, answer := a }
  have hdone := State.completes_of_exec hw
  have hwin : w.inputs = .wait :: rest := by rw [hdone.frame]; exact hin
  refine ⟨a, w, hw, ?_⟩
  rw [hpolls, run_succ ((step_completion (s := { s with left := 0, answer := a }) hp (.inl rfl)).trans hw),
    run_succ (step_wait_idle hdone.pending hwin)]
  rfl

end

/-- Settles O46: WAIT runs the completion step, which reports a legal code and leaves nothing pending. -/
theorem waitEndsWithTheCommandCompleted : Obligations.WaitEndsWithTheCommandCompleted := by
  intro s p rest hp hin
  obtain ⟨a, w, hw, hrun⟩ := run_wait hp hin
  have hdone := State.completes_of_exec hw
  exact ⟨_, hrun, hdone.pending, rfl, rfl, hdone.result⟩

/-! ## A command and its WAIT -/

/-- `s` with the fields of `e` that no untainted command looks at: the draws, the schedule, the answer, the inputs. -/
def State.withRun (s e : State) : State :=
  { s with draws := e.draws, left := e.left, latencies := e.latencies, answer := e.answer, inputs := e.inputs }

section
variable (s e : State) (p : Option Pending)

theorem State.deframed_withRun : State.deframed { s.withRun e with pending := p } = s.deframed.withRun e := by
  simp only [State.deframed, apply_ite (State.withRun · e)]
  rfl

theorem State.enframed_withRun : State.enframed { s.withRun e with pending := p } = s.enframed.withRun e := by
  simp only [State.enframed, apply_ite (State.withRun · e)]
  rfl

end

/-- An untainted command's completion step neither reads nor writes the fields of the run, and which command it finds
pending does not matter (10_state.md R26). -/
theorem exec_withRun {s w : State} (e : State) {op : Byte} (h : s.tainted = false)
    (hw : exec (decodeCmd op) s = .next w) (c : Byte) :
    exec (decodeCmd op) { s.withRun e with pending := some ⟨c, false⟩ } = .next (w.withRun e) := by
  rcases decodeCmd_cases op with ⟨-, hi⟩ | ⟨-, hi⟩ | ⟨-, hi⟩ | ⟨-, hi⟩ | ⟨-, hi⟩ <;> rw [hi] at hw ⊢
  · obtain rfl := Host.Outcome.next.inj hw
    rfl
  · rw [exec, execCrcUpdate, h] at hw
    obtain rfl := Host.Outcome.next.inj hw
    rfl
  · rw [exec_decode_untainted h] at hw
    obtain rfl := Host.Outcome.next.inj hw
    rw [exec_decode_untainted rfl, State.deframed_withRun]
  · rw [exec_encode_untainted h] at hw
    obtain rfl := Host.Outcome.next.inj hw
    rw [exec_encode_untainted rfl, State.enframed_withRun]
  · obtain rfl := Host.Outcome.next.inj hw
    rfl

/-- The host's write word runs as the write, where the next input is taken. -/
theorem step_busWrite {s : State} {off : Offset} {v : Byte} {rest : List Input}
    (hin : s.inputs = .word (busWrite off v) :: rest) (htakes : s.takesInput) :
    step s = exec (.wr off v) (s.atAccess rest) :=
  step_word hin htakes (decodeBus_busWrite off v)

/-- Settles O47: the write starts the command, and WAIT runs its completion step on a state that differs from the idle
one in the pending command and the fields of the run. -/
theorem commandThenWaitIsTheCommand : Obligations.CommandThenWaitIsTheCommand := by
  intro s c rest hidle hin
  have hstart : step s = .next ((s.atAccess (.wait :: rest)).start c) :=
    (step_busWrite hin (.inl hidle)).trans (exec_wr_cmd_idle (s := s.atAccess (.wait :: rest)) hidle c)
  obtain ⟨a, u, hu, hrun⟩ := run_wait (s := (s.atAccess (.wait :: rest)).start c) rfl rfl
  obtain ⟨w, hw⟩ := exec_next (decodeCmd c) s
  have huntainted : s.tainted = false := by rw [State.tainted, hidle]
  have hsame := exec_withRun { (s.atAccess (.wait :: rest)).start c with left := 0, answer := a } huntainted hw c
  have hu_eq : u = w.withRun { (s.atAccess (.wait :: rest)).start c with left := 0, answer := a } :=
    Host.Outcome.next.inj (hu.symm.trans hsame)
  refine ⟨_, w, (run_succ hstart _).trans hrun, hw, ?_⟩
  rw [hu_eq]; rfl

end Sys2Proof.Machine
end

section
/-! SUPPORT. Runs of the loads of IN_BUF and PL_BUF from an idle FCB (30_encoding.md R101). -/

namespace Sys2Proof.Machine

/-- With nothing pending no write is an input hazard (70_reset_and_hazards.md R212). -/
theorem State.inputHazard_idle {s : State} (hidle : s.pending = none) (t : Target) : s.inputHazard t = false := by
  rw [State.inputHazard, hidle]

/-- `s` at another place in the host program: what is still to come, and the accesses left to wait for (log 1, log
8). -/
def State.withProgram (s : State) (inputs : List Input) (left : Nat) : State :=
  { s with inputs := inputs, left := left }

/-- A register write does not look at the place in the host program. -/
theorem State.writeReg_withProgram (s : State) (inputs : List Input) (left : Nat) (v : Byte) (r : Reg) :
    (s.withProgram inputs left).writeReg v r = (s.writeReg v r).withProgram inputs left := by
  cases r <;> rfl

section
variable {s : State} {rest : List Input}

/-- Idle, the host's write word stores in its target, CMD apart. -/
theorem step_busWrite_idle {off : Offset} {v : Byte} {t : Target} (hidle : s.pending = none)
    (hin : s.inputs = .word (busWrite off v) :: rest) (ht : s.targetOf off = t) (hcmd : t ≠ .reg .cmd) :
    step s = .next ((s.atAccess rest).writeTarget v t) :=
  (step_busWrite hin (.inl hidle)).trans
    (exec_wr_exact (s := s.atAccess rest) v ht hcmd (State.inputHazard_idle hidle t))

/-- Idle, `wr NAME, V` stores in the register named, CMD apart. -/
theorem step_wrReg_idle {r : Reg} {v : Byte} (hidle : s.pending = none) (hin : s.inputs = wrReg r v :: rest)
    (hr : r ≠ .cmd) : step s = .next ((s.writeReg v r).withProgram rest (s.left - 1)) := by
  have hoff : (BitVec.ofNat 11 (regOffset r)).toNat = regOffset r := by cases r <;> rfl
  rw [step_busWrite_idle hidle hin (State.targetOf_reg r hoff) fun h => hr (Target.reg.inj h)]
  exact congrArg Host.Outcome.next (s.writeReg_withProgram rest (s.left - 1) v r)

/-- Idle, a write word at an offset of PL_BUF or IN_BUF stores its byte there. -/
theorem step_store_idle {a : Nat} {v : Byte} (hidle : s.pending = none)
    (hin : s.inputs = .word (busWrite (BitVec.ofNat 11 a) v) :: rest) (ha : a < 0x800)
    (hstores : hostStores s.params a) : step s = .next ((s.atAccess rest).store a v) := by
  have hoff : (BitVec.ofNat 11 a).toNat = a := Nat.mod_eq_of_lt ha
  rcases hstores with ⟨hlo, hhi⟩ | ⟨hlo, hhi⟩
  · have ht : s.targetOf (BitVec.ofNat 11 a) = .plBuf (a - plBase) := target_plBuf.2 (by omega)
    rw [step_busWrite_idle hidle hin ht (by simp), State.writeTarget, Nat.add_sub_cancel' hlo]
  · have ht : s.targetOf (BitVec.ofNat 11 a) = .inBuf (a - inBase) := target_inBuf.2 (by omega)
    rw [step_busWrite_idle hidle hin ht (by simp), State.writeTarget, Nat.add_sub_cancel' hlo]

/-- Idle, writes of consecutive bytes of PL_BUF or of IN_BUF store them, one step each. -/
theorem run_wrBytes {a : Nat} {bytes : List Byte} (k : Nat) (hidle : s.pending = none)
    (hin : s.inputs = wrBytes a bytes ++ rest) (ha : a + bytes.length ≤ 0x800)
    (hstores : ∀ b, a ≤ b → b < a + bytes.length → hostStores s.params b) :
    core.run (bytes.length + k) s =
      core.run k ((s.storeBytes a bytes).withProgram rest (s.left - bytes.length)) := by
  induction bytes generalizing s a with
  | nil =>
    have hsame : s = (s.storeBytes a []).withProgram rest (s.left - 0) := by
      obtain rfl : s.inputs = rest := hin
      rfl
    rw [List.length_nil, Nat.zero_add, ← hsame]
  | cons v vs ih =>
    rw [List.length_cons] at ha hstores
    have hstep : step s = .next ((s.atAccess (wrBytes (a + 1) vs ++ rest)).store a v) :=
      step_store_idle hidle hin (by omega) (hstores a le_rfl (by omega))
    have hleft : s.left - (vs.length + 1) = s.left - 1 - vs.length := by omega
    rw [List.length_cons, Nat.add_right_comm, run_succ hstep, hleft]
    exact ih (s := (s.atAccess (wrBytes (a + 1) vs ++ rest)).store a v) hidle rfl (by omega)
      fun b hlo hhi => hstores b (by omega) (by omega)

/-- Idle, `wr NAME, V` at any place in the host program. -/
theorem step_wrReg_withProgram {r : Reg} (v : Byte) (hidle : s.pending = none) (hr : r ≠ .cmd) (left : Nat) :
    step (s.withProgram (wrReg r v :: rest) left) = .next ((s.writeReg v r).withProgram rest (left - 1)) := by
  rw [step_wrReg_idle (s := s.withProgram (wrReg r v :: rest) left) hidle rfl hr, State.writeReg_withProgram]
  rfl

/-- Idle, a load: consecutive bytes of PL_BUF or of IN_BUF and then their number in two registers, one step each. -/
theorem run_load {a : Nat} {bytes : List Byte} {lo hi : Reg} (hidle : s.pending = none)
    (hin : s.inputs =
      wrBytes a bytes ++ wrReg lo (pairOf bytes.length).lo :: wrReg hi (pairOf bytes.length).hi :: rest)
    (hlo : lo ≠ .cmd) (hhi : hi ≠ .cmd) (ha : a + bytes.length ≤ 0x800)
    (hstores : ∀ b, a ≤ b → b < a + bytes.length → hostStores s.params b) :
    ∃ left, core.run (bytes.length + 2) s =
      .next ((((s.storeBytes a bytes).writeReg (pairOf bytes.length).lo lo).writeReg
        (pairOf bytes.length).hi hi).withProgram rest left) := by
  have hidle' : ((s.storeBytes a bytes).writeReg (pairOf bytes.length).lo lo).pending = none :=
    ((s.storeBytes a bytes).writeTarget_pending _ (.reg lo)).trans hidle
  exact ⟨_, (run_wrBytes 2 hidle hin ha hstores).trans
    ((run_succ (step_wrReg_withProgram (s := s.storeBytes a bytes) _ hidle hlo _) 1).trans
      (run_succ (step_wrReg_withProgram _ hidle' hhi _) 0))⟩

end

/-- The bytes stored stand at their indices. -/
theorem State.byteAt_storeBytes_getElem (s : State) (a : Nat) (bytes : List Byte) {i : Nat} (h : i < bytes.length) :
    (s.storeBytes a bytes).byteAt (a + i) = bytes[i] := by
  rw [State.byteAt_storeBytes, if_pos (by omega), Nat.add_sub_cancel_left, List.getD_eq_getElem bytes 0 h]

/-- No byte outside the range stored changes. -/
theorem State.byteAt_storeBytes_outside (s : State) {a b : Nat} (bytes : List Byte)
    (h : b < a ∨ a + bytes.length ≤ b) : (s.storeBytes a bytes).byteAt b = s.byteAt b := by
  rw [State.byteAt_storeBytes, if_neg (by omega)]

/-- Settles O48: the load of IN_BUF and IN_LEN. -/
theorem loadInStoresTheBytesAndTheirNumber : Obligations.LoadInStoresTheBytesAndTheirNumber := by
  intro s bytes rest ⟨⟨_, hcap⟩, _⟩ hidle hlen hin
  rw [Pseudo.expand, List.append_assoc] at hin
  have hstores : ∀ b, inBase ≤ b → b < inBase + bytes.length → hostStores s.params b :=
    fun b hlo hhi => .inr ⟨hlo, by omega⟩
  obtain ⟨left, hrun⟩ := run_load hidle hin (by decide) (by decide) (by simp only [inBase]; omega) hstores
  exact ⟨_, hrun, rfl, pairValue_pairOf (by omega), fun i h => s.byteAt_storeBytes_getElem inBase bytes h,
    fun a h => s.byteAt_storeBytes_outside bytes h⟩

/-- Settles O49: a step that writes TX_ACTION, then the load of PL_BUF and TX_PLEN. -/
theorem loadPlStagesTheActionAndThePayload : Obligations.LoadPlStagesTheActionAndThePayload := by
  intro s action payload rest _ hidle hlen hin
  rw [Pseudo.expand, List.cons_append, List.append_assoc] at hin
  have hstores : ∀ b, plBase ≤ b → b < plBase + payload.length → hostStores s.params b :=
    fun b hlo hhi => .inl ⟨hlo, by simp only [plCap]; omega⟩
  have haction := step_wrReg_idle hidle hin (by decide)
  obtain ⟨left, hrun⟩ := run_load (s := (s.writeReg action .txAction).withProgram _ (s.left - 1)) (lo := .txPlenLo)
    (hi := .txPlenHi) (rest := rest) hidle rfl (by decide) (by decide) (by simp only [plBase]; omega) hstores
  exact ⟨_, (run_succ haction _).trans hrun, rfl, pairValue_pairOf (by omega),
    fun i h => s.byteAt_storeBytes_getElem plBase payload h, fun a h => s.byteAt_storeBytes_outside payload h⟩

end Sys2Proof.Machine
end

section
/-! SUPPORT. The algebra of the CRC-8 function (40_crc.md R113 to R115): a step loses nothing, the function is linear,
and it is division by G(x) over GF(2). -/

namespace Sys2Proof.Machine

/-! ## A change is never lost -/

theorem crcShifts_injective (k : Nat) : Function.Injective (crcShifts k) := by
  intro x y h
  have hdiff : crcShifts k (x ^^^ y) = 0x00 := by simp [crcShifts_xor, h]
  exact BitVec.xor_eq_zero_iff.1 (crcShifts_eq_zero hdiff)

theorem crc8Step_left_inj {c d b : Byte} : crc8Step c b = crc8Step d b ↔ c = d :=
  (crcShifts_injective 8).eq_iff.trans (BitVec.xor_left_inj b)

theorem crc8Step_right_inj {c a b : Byte} : crc8Step c a = crc8Step c b ↔ a = b :=
  (crcShifts_injective 8).eq_iff.trans (BitVec.xor_right_inj c)

/-- No bytes fed after a difference in the accumulator can hide it. -/
theorem foldl_crc8Step_left_inj {c d : Byte} (seq : List Byte) :
    seq.foldl crc8Step c = seq.foldl crc8Step d ↔ c = d := by
  induction seq generalizing c d with
  | nil => exact Iff.rfl
  | cons b bs ih => exact ih.trans crc8Step_left_inj

/-- Another byte in one place gives another CRC. -/
theorem crc8_set_eq_iff {seq : List Byte} {i : Nat} (h : i < seq.length) (b : Byte) :
    crc8 (seq.set i b) = crc8 seq ↔ b = seq[i] := by
  have hseq : seq = seq.take i ++ seq[i] :: seq.drop (i + 1) := by
    rw [List.getElem_cons_drop, List.take_append_drop]
  have hset : seq.set i b = seq.take i ++ b :: seq.drop (i + 1) := List.set_eq_take_append_cons_drop.trans (if_pos h)
  conv_lhs => rw [hset]; rhs; rw [hseq]
  simp only [crc8, List.foldl_append, List.foldl_cons, foldl_crc8Step_left_inj, crc8Step_right_inj]

/-! ## Linearity -/

/-- The bytewise exclusive or of two sequences, fed into the exclusive or of two accumulators. -/
theorem foldl_crc8Step_zipWith_xor {a b : List Byte} (h : a.length = b.length) (c d : Byte) :
    (List.zipWith (· ^^^ ·) a b).foldl crc8Step (c ^^^ d) = a.foldl crc8Step c ^^^ b.foldl crc8Step d := by
  induction a generalizing b c d with
  | nil =>
    obtain rfl := List.length_eq_zero_iff.1 h.symm
    rfl
  | cons x xs ih =>
    cases b with
    | nil => simp at h
    | cons y ys =>
      rw [List.zipWith_cons_cons, List.foldl_cons, crc8Step_xor]
      exact ih (Nat.succ.inj h) _ _

/-! ## Bytes and bit sequences as polynomials over GF(2) -/

open Polynomial

/-- A bit as an element of GF(2). -/
def bitCoeff (b : Bool) : ZMod 2 := if b then 1 else 0

/-- A byte as a polynomial: bit `i` is the coefficient of `x^i` (40_crc.md R113). -/
noncomputable def bytePoly (b : Byte) : (ZMod 2)[X] := ∑ i : Fin 8, C (bitCoeff (b.getLsbD i)) * X ^ (i : Nat)

/-- The bits of a byte, bit 7 first (40_crc.md R111). -/
def byteBits (b : Byte) : List Bool := (List.range 8).map fun k => b.getLsbD (7 - k)

/-- The polynomial of a bit sequence, the highest coefficient first, by Horner's rule. -/
noncomputable def bitsPoly (bits : List Bool) : (ZMod 2)[X] :=
  bits.foldl (fun q b => q * X + if b then 1 else 0) 0

/-- The generator G(x) (40_crc.md R112). -/
noncomputable def crcGenerator : (ZMod 2)[X] := X ^ 8 + X ^ 2 + X + 1

theorem bitCoeff_xor (a b : Bool) : bitCoeff (a ^^ b) = bitCoeff a + bitCoeff b := by
  revert a b
  decide

theorem C_bitCoeff (b : Bool) : C (bitCoeff b) = if b then (1 : (ZMod 2)[X]) else 0 := by
  cases b <;> simp [bitCoeff]

theorem bytePoly_xor (a b : Byte) : bytePoly (a ^^^ b) = bytePoly a + bytePoly b := by
  simp only [bytePoly, BitVec.getLsbD_xor, bitCoeff_xor, C_add, add_mul, Finset.sum_add_distrib]

theorem bytePoly_zero : bytePoly 0x00 = 0 := by
  simp [bytePoly, bitCoeff]

theorem degree_bytePoly_lt (b : Byte) : (bytePoly b).degree < 8 := degree_sum_fin_lt _

/-- Feeding Horner's rule a byte, bit 7 first, moves what stands before it up by eight. -/
theorem bitsPoly_append_byteBits (bits : List Bool) (b : Byte) :
    bitsPoly (bits ++ byteBits b) = bitsPoly bits * X ^ 8 + bytePoly b := by
  simp only [bytePoly, Fin.sum_univ_eight, C_bitCoeff, bitsPoly, byteBits, List.foldl_append, List.range,
    List.range.loop, List.map, List.foldl, Fin.isValue, Fin.coe_ofNat_eq_mod, Nat.reduceMod, Nat.reduceSub]
  ring

theorem bitsPoly_byteBits (b : Byte) : bitsPoly (byteBits b) = bytePoly b := by
  simpa [bitsPoly] using bitsPoly_append_byteBits [] b

/-- Shifting a byte left multiplies by `x` and loses bit 7. -/
theorem bytePoly_shiftLeft (t : Byte) :
    bytePoly (t <<< 1) + C (bitCoeff (t.getLsbD 7)) * X ^ 8 = bytePoly t * X := by
  have hbottom : bitCoeff ((t <<< 1).getLsbD (0 : Fin 8)) = 0 := by simp [bitCoeff]
  have hup (i : Fin 7) : (t <<< 1).getLsbD i.succ = t.getLsbD i.castSucc := by
    rw [BitVec.getLsbD_shiftLeft]
    simp [Nat.succ_lt_succ i.isLt]
  have hshift : bytePoly (t <<< 1) = (∑ i : Fin 7, C (bitCoeff (t.getLsbD i.castSucc)) * X ^ (i : Nat)) * X := by
    rw [bytePoly, Fin.sum_univ_succ, hbottom, C_0, zero_mul, zero_add, Finset.sum_mul]
    exact Finset.sum_congr rfl fun i _ => by rw [hup, Fin.val_succ, pow_succ, mul_assoc]
  have hsplit : bytePoly t = (∑ i : Fin 7, C (bitCoeff (t.getLsbD i.castSucc)) * X ^ (i : Nat)) +
      C (bitCoeff (t.getLsbD 7)) * X ^ 7 := Fin.sum_univ_castSucc _
  rw [hshift, hsplit]
  ring

theorem crcGenerator_eq : crcGenerator = X ^ 8 + bytePoly 0x07 := by
  have hlow : bytePoly 0x07 = 1 + X + X ^ 2 := by simp [bytePoly, Fin.sum_univ_eight, bitCoeff]
  rw [hlow, crcGenerator]
  ring

theorem degree_bytePoly_lt_X_pow (b : Byte) : (bytePoly b).degree < (X ^ 8 : (ZMod 2)[X]).degree := by
  rw [degree_X_pow]
  exact degree_bytePoly_lt b

theorem crcGenerator_monic : crcGenerator.Monic := by
  rw [crcGenerator_eq]
  exact monic_X_pow_add (degree_bytePoly_lt 0x07)

theorem degree_bytePoly_lt_crcGenerator (b : Byte) : (bytePoly b).degree < crcGenerator.degree := by
  rw [crcGenerator_eq, degree_add_eq_left_of_degree_lt (degree_bytePoly_lt_X_pow 0x07)]
  exact degree_bytePoly_lt_X_pow b

/-! ## The loop of 40_crc.md R111 is division by G(x) -/

/-- A turn of the loop multiplies by `x` and takes G(x) off when bit 7 is shifted out. -/
theorem bytePoly_crcShift (t : Byte) :
    bytePoly (crcShift t) + C (bitCoeff (t.getLsbD 7)) * crcGenerator = bytePoly t * X := by
  rw [← bytePoly_shiftLeft, crcGenerator_eq, crcShift]
  cases t.getLsbD 7
  · simp [bitCoeff]
  · simp only [C_bitCoeff, if_true, bytePoly_xor]
    linear_combination CharTwo.add_self_eq_zero (bytePoly 0x07)

/-- A polynomial modulo G(x). -/
noncomputable def modG : (ZMod 2)[X] →+* AdjoinRoot crcGenerator := AdjoinRoot.mk crcGenerator

theorem modG_crcGenerator : modG crcGenerator = 0 := AdjoinRoot.mk_self

/-- A byte congruent to a polynomial is its remainder by G(x). -/
theorem modByMonic_eq_bytePoly {p : (ZMod 2)[X]} {b : Byte} (h : modG p = modG (bytePoly b)) :
    p %ₘ crcGenerator = bytePoly b :=
  (modByMonic_eq_of_dvd_sub crcGenerator_monic (AdjoinRoot.mk_eq_mk.1 h)).trans
    ((modByMonic_eq_self_iff crcGenerator_monic).2 (degree_bytePoly_lt_crcGenerator b))

theorem modG_bytePoly_crcShift (t : Byte) : modG (bytePoly (crcShift t)) = modG (bytePoly t * X) := by
  rw [← bytePoly_crcShift t, map_add, map_mul, modG_crcGenerator, mul_zero, add_zero]

/-- `k` turns of the loop multiply by `x^k` modulo G(x). -/
theorem modG_bytePoly_crcShifts (k : Nat) (t : Byte) :
    modG (bytePoly (crcShifts k t)) = modG (bytePoly t * X ^ k) := by
  induction k generalizing t with
  | zero => simp [crcShifts]
  | succ k ih =>
    calc modG (bytePoly (crcShifts k (crcShift t)))
      _ = modG (bytePoly (crcShift t)) * modG (X ^ k) := by rw [ih, map_mul]
      _ = modG (bytePoly t * X) * modG (X ^ k) := by rw [modG_bytePoly_crcShift]
      _ = modG (bytePoly t * X ^ (k + 1)) := by rw [← map_mul, mul_assoc, ← pow_succ']

/-- The CRC of a sequence is its polynomial times `x^8`, modulo G(x). -/
theorem modG_bytePoly_crc8 (seq : List Byte) :
    modG (bytePoly (crc8 seq)) = modG (bitsPoly (seq.flatMap byteBits) * X ^ 8) := by
  induction seq using List.reverseRecOn with
  | nil => rw [crc8_nil, bytePoly_zero, List.flatMap_nil, bitsPoly, List.foldl_nil, zero_mul]
  | append_singleton seq b ih =>
    calc modG (bytePoly (crc8 (seq ++ [b])))
      _ = modG ((bytePoly (crc8 seq) + bytePoly b) * X ^ 8) := by
        rw [crc8_append_one, crc8Step, modG_bytePoly_crcShifts, bytePoly_xor]
      _ = modG ((bitsPoly (seq.flatMap byteBits) * X ^ 8 + bytePoly b) * X ^ 8) := by
        simp only [map_mul, map_add, ih]
      _ = modG (bitsPoly ((seq ++ [b]).flatMap byteBits) * X ^ 8) := by
        rw [List.flatMap_append, List.flatMap_singleton, bitsPoly_append_byteBits]

/-- The algebraic form of the CRC (40_crc.md R113). -/
theorem bitsPoly_mul_modByMonic (seq : List Byte) :
    (bitsPoly (seq.flatMap byteBits) * X ^ 8) %ₘ crcGenerator = bitsPoly (byteBits (crc8 seq)) := by
  rw [bitsPoly_byteBits]
  exact modByMonic_eq_bytePoly (modG_bytePoly_crc8 seq).symm

/-- A sequence followed by its own CRC has remainder zero (40_crc.md R113). -/
theorem crc8_append_crc8 (seq : List Byte) : crc8 (seq ++ [crc8 seq]) = 0x00 := by
  rw [crc8_append_one, crc8Step_self]

/-! ## The statements about the CRC -/

theorem exec_crcUpdate_untainted {s : State} (h : s.tainted = false) :
    exec .crcUpdate s = .next { s with crc := crc8Step s.crc s.crcDin, result := 0x01, pending := none } := by
  rcases execCrcUpdate_cases s with ⟨-, he⟩ | ⟨ht, -⟩
  · exact he
  · simp [h] at ht

/-- Settles O20: every turn of the loop is a multiplication by `x` modulo G(x), and a byte has a lower degree than
G(x). -/
theorem crc8IsThePolynomialRemainder : Obligations.Crc8IsThePolynomialRemainder :=
  fun seq => ⟨bitsPoly_mul_modByMonic seq, crc8_append_crc8 seq⟩

/-- Settles O21: from the linearity of the step, by induction over the two sequences, both accumulators 0x00. -/
theorem crc8IsLinear : Obligations.Crc8IsLinear :=
  fun _ _ h => foldl_crc8Step_zipWith_xor h 0x00 0x00

/-- Settles O22: an equal CRC would need an equal byte, and a mask with bit `k` set is not 0. -/
theorem crc8DetectsEveryBitFlip : Obligations.Crc8DetectsEveryBitFlip := by
  intro seq i k hi hk hsame
  have hmask : 1#8 <<< k = 0#8 := by simpa using (crc8_set_eq_iff hi _).1 hsame
  have hbit : (1#8 <<< k).getLsbD k = true := by simp [hk]
  rw [hmask] at hbit
  simp at hbit

/-- Settles O18: CRC_INIT's completion step is this update. -/
theorem crcInitClearsTheAccumulator : Obligations.CrcInitClearsTheAccumulator := fun _ => rfl

/-- Settles O19: the untainted completion step, and one more byte is one more step. -/
theorem crcUpdateFeedsOneByte : Obligations.CrcUpdateFeedsOneByte := by
  refine ⟨fun _ h => exec_crcUpdate_untainted h, crc8Step_self, by decide, fun s seq h hcrc => ?_, crc8_nil⟩
  exact ⟨_, exec_crcUpdate_untainted h, by rw [crc8_append_one, hcrc]⟩

end Sys2Proof.Machine
end

section
/-! SUPPORT. DECODE (41_framing.md R131 to R145): what each check makes of the state, which bytes it reads, what it
leaves unchanged, and which changes of a frame it detects. -/

namespace Sys2Proof.Machine

/-! ## The outcome of each check -/

section
variable {s : State}

/-- The length checks (41_framing.md R132, R133). -/
theorem State.deframed_of_short (h : s.inLength < 8 + s.inPayloadLength) : s.deframed = s.complete .len := by
  rcases s.deframed_cases with ⟨-, he⟩ | ⟨hfits, -⟩ | ⟨hframed, -⟩ | ⟨hframed, -⟩
  · exact he
  · exact absurd h (not_lt.2 hfits)
  · exact absurd h (not_lt.2 hframed.fits)
  · exact absurd h (not_lt.2 hframed.fits)

/-- The sentinels (41_framing.md R135). -/
theorem State.deframed_of_badSentinel (hfits : 8 + s.inPayloadLength ≤ s.inLength)
    (h : s.inByte 0 ≠ startSentinel ∨ s.inByte (7 + s.inPayloadLength) ≠ endSentinel) :
    s.deframed = s.complete .format := by
  rcases s.deframed_cases with ⟨hshort, -⟩ | ⟨-, -, he⟩ | ⟨hframed, -⟩ | ⟨hframed, -⟩
  · exact absurd hfits (not_le.2 hshort)
  · exact he
  · exact absurd ⟨hframed.starts, hframed.ends⟩ (not_and_or.2 h)
  · exact absurd ⟨hframed.starts, hframed.ends⟩ (not_and_or.2 h)

/-- A frame that reaches the checksum stage passed both checks before it (41_framing.md R138). -/
theorem State.Framed.not_rejected (h : s.Framed) : ¬ s.inLength < frameOverhead + s.inPayloadLength ∧
    ¬ (s.inByte 0 ≠ startSentinel ∨ s.inByte (7 + s.inPayloadLength) ≠ endSentinel) :=
  ⟨not_lt.2 h.fits, not_or.2 ⟨not_not.2 h.starts, not_not.2 h.ends⟩⟩

/-- The checksum does not match (41_framing.md R136). -/
theorem State.Framed.deframed_of_wrongChecksum (h : s.Framed)
    (hsum : crc8 s.inCovered ≠ s.inByte (6 + s.inPayloadLength)) :
    s.deframed = { s with crc := crc8 s.inCovered }.complete .checksum := by
  obtain ⟨hfits, hsentinels⟩ := h.not_rejected
  rcases s.deframed_cases with ⟨hshort, -⟩ | ⟨-, hbad, -⟩ | ⟨-, -, he⟩ | ⟨-, hsame, -⟩
  · exact absurd hshort hfits
  · exact absurd hbad hsentinels
  · exact he
  · exact absurd hsame hsum

/-- The checksum matches (41_framing.md R137). -/
theorem State.Framed.deframed_of_rightChecksum (h : s.Framed)
    (hsum : crc8 s.inCovered = s.inByte (6 + s.inPayloadLength)) :
    s.deframed = { s with
      crc := crc8 s.inCovered, rxAction := s.inByte 1, rxPlen := s.inByte 5 }.complete .ok := by
  obtain ⟨hfits, hsentinels⟩ := h.not_rejected
  rcases s.deframed_cases with ⟨hshort, -⟩ | ⟨-, hbad, -⟩ | ⟨-, hdiff, -⟩ | ⟨-, -, he⟩
  · exact absurd hshort hfits
  · exact absurd hbad hsentinels
  · exact absurd hsum hdiff
  · exact he

/-- CRC is written at the checksum stage and not before (41_framing.md R136). -/
theorem State.deframed_crc_of_rejected (h : s.deframed.result = 0x02 ∨ s.deframed.result = 0x03) :
    s.deframed.crc = s.crc := by
  rcases s.deframed_cases with ⟨-, he⟩ | ⟨-, -, he⟩ | ⟨-, -, he⟩ | ⟨-, -, he⟩ <;> rw [he] at h ⊢
  · rfl
  · rfl
  · exact absurd h (by simp [ResultCode.byte])
  · exact absurd h (by simp [ResultCode.byte])

/-- RX_ACTION and RX_PLEN are written on success alone (41_framing.md R137, R140). -/
theorem State.deframed_rx_of_failed (h : s.deframed.result ≠ 0x01) :
    s.deframed.rxAction = s.rxAction ∧ s.deframed.rxPlen = s.rxPlen := by
  rcases s.deframed_cases with ⟨-, he⟩ | ⟨-, -, he⟩ | ⟨-, -, he⟩ | ⟨-, -, he⟩ <;> rw [he] at h ⊢
  · exact ⟨rfl, rfl⟩
  · exact ⟨rfl, rfl⟩
  · exact ⟨rfl, rfl⟩
  · exact absurd rfl h

end

/-- Fewer than 8 bytes are too few whatever length is declared (41_framing.md R132). -/
theorem State.short_of_lt_overhead {s : State} (h : s.inLength < 8) : s.inLength < 8 + s.inPayloadLength := by
  omega

/-- Settles O23: either length check, and the whole next state is the completion with LEN. -/
theorem decodeTooShortReportsLen : Obligations.DecodeTooShortReportsLen := by
  intro s hs hshort
  have hlt : s.inLength < 8 + s.inPayloadLength := hshort.elim State.short_of_lt_overhead id
  rw [exec_decode_untainted hs, State.deframed_of_short hlt]
  rfl

/-- Settles O24: past the length checks a wrong sentinel completes with FORMAT. -/
theorem decodeBadSentinelReportsFormat : Obligations.DecodeBadSentinelReportsFormat := by
  rintro s _ hs rfl hfits hbad
  rw [exec_decode_untainted hs, State.deframed_of_badSentinel hfits hbad]
  rfl

/-- Settles O25: both outcomes of the checksum, and what the outcomes before it keep. -/
theorem decodeChecksTheChecksum : Obligations.DecodeChecksTheChecksum := by
  refine ⟨?_, fun s t hs ht => ?_⟩
  · rintro s _ c hs rfl hfits hstart hend hc
    have hframed : s.Framed := ⟨hfits, hstart, hend⟩
    obtain rfl : c = crc8 s.inCovered := by rw [s.inCovered_eq_map]; exact hc
    rw [exec_decode_untainted hs]
    exact ⟨fun hwrong => congrArg _ (hframed.deframed_of_wrongChecksum hwrong),
      fun hright => congrArg _ (hframed.deframed_of_rightChecksum hright)⟩
  · obtain rfl := Host.Outcome.next.inj ((exec_decode_untainted hs).symm.trans ht)
    exact ⟨State.deframed_crc_of_rejected, State.deframed_rx_of_failed⟩

/-! ## What DECODE makes of a state, apart from the state -/

/-- What an untainted DECODE reports and writes: its result code, CRC where it reaches the checksum, and RX_ACTION and
RX_PLEN where it succeeds (41_framing.md R136, R137). -/
structure Verdict where
  code : ResultCode
  crc : Option Byte
  rx : Option (Byte × Byte)

/-- The completion with a verdict: a register the verdict names is written, another keeps its value. -/
def State.report (s : State) (v : Verdict) : State :=
  { s with
    crc := v.crc.getD s.crc
    rxAction := (v.rx.map Prod.fst).getD s.rxAction
    rxPlen := (v.rx.map Prod.snd).getD s.rxPlen }.complete v.code

/-- To report a verdict again changes nothing. -/
theorem State.report_report (s : State) (v : Verdict) : (s.report v).report v = s.report v := by
  obtain ⟨code, crc, rx⟩ := v
  cases crc <;> cases rx <;> rfl

/-- `t` shows DECODE the frame that `s` does: too short in both, or whole in both and the same byte for byte. -/
structure State.SameFrame (s t : State) : Prop where
  short_iff : t.inLength < 8 + t.inPayloadLength ↔ s.inLength < 8 + s.inPayloadLength
  bytes : 8 + s.inPayloadLength ≤ s.inLength → ∀ j ≤ 7 + s.inPayloadLength, t.inByte j = s.inByte j

theorem State.SameFrame.refl (s : State) : s.SameFrame s := ⟨Iff.rfl, fun _ _ _ => rfl⟩

section
variable {s t : State} (h : s.SameFrame t)
include h

theorem State.SameFrame.fits (hfits : 8 + s.inPayloadLength ≤ s.inLength) : 8 + t.inPayloadLength ≤ t.inLength :=
  not_lt.1 (h.short_iff.not.2 (not_lt.2 hfits))

theorem State.SameFrame.inPayloadLength (hfits : 8 + s.inPayloadLength ≤ s.inLength) :
    t.inPayloadLength = s.inPayloadLength :=
  congrArg BitVec.toNat (h.bytes hfits 5 (by omega))

theorem State.SameFrame.inCovered (hfits : 8 + s.inPayloadLength ≤ s.inLength) : t.inCovered = s.inCovered :=
  State.inCovered_congr (fun i _ hi => h.bytes hfits i (by omega)) (h.inPayloadLength hfits)

theorem State.SameFrame.inByte_checksum (hfits : 8 + s.inPayloadLength ≤ s.inLength) :
    t.inByte (6 + t.inPayloadLength) = s.inByte (6 + s.inPayloadLength) := by
  rw [h.inPayloadLength hfits, h.bytes hfits _ (by omega)]

theorem State.SameFrame.inByte_end (hfits : 8 + s.inPayloadLength ≤ s.inLength) :
    t.inByte (7 + t.inPayloadLength) = s.inByte (7 + s.inPayloadLength) := by
  rw [h.inPayloadLength hfits, h.bytes hfits _ le_rfl]

theorem State.SameFrame.framed (hs : s.Framed) : t.Framed where
  fits := h.fits hs.fits
  starts := (h.bytes hs.fits 0 (by omega)).trans hs.starts
  ends := (h.inByte_end hs.fits).trans hs.ends

end

/-- DECODE reads the frame and nothing else: states that show the same frame get the same verdict (41_framing.md
R139). -/
theorem State.exists_verdict (s : State) : ∃ v : Verdict, ∀ t, s.SameFrame t → t.deframed = t.report v := by
  rcases s.deframed_cases with ⟨hshort, -⟩ | ⟨hfits, hbad, -⟩ | ⟨hframed, hsum, -⟩ | ⟨hframed, hsum, -⟩
  · exact ⟨⟨.len, none, none⟩, fun t h => State.deframed_of_short (h.short_iff.2 hshort)⟩
  · refine ⟨⟨.format, none, none⟩, fun t h => State.deframed_of_badSentinel (h.fits hfits) ?_⟩
    rwa [h.bytes hfits 0 (by omega), h.inByte_end hfits]
  · refine ⟨⟨.checksum, some (crc8 s.inCovered), none⟩, fun t h => ?_⟩
    have hwrong : crc8 t.inCovered ≠ t.inByte (6 + t.inPayloadLength) := by
      rwa [h.inCovered hframed.fits, h.inByte_checksum hframed.fits]
    rw [(h.framed hframed).deframed_of_wrongChecksum hwrong, h.inCovered hframed.fits]
    rfl
  · refine ⟨⟨.ok, some (crc8 s.inCovered), some (s.inByte 1, s.inByte 5)⟩, fun t h => ?_⟩
    have hright : crc8 t.inCovered = t.inByte (6 + t.inPayloadLength) := by
      rwa [h.inCovered hframed.fits, h.inByte_checksum hframed.fits]
    rw [(h.framed hframed).deframed_of_rightChecksum hright, h.inCovered hframed.fits,
      h.bytes hframed.fits 1 (by omega), h.bytes hframed.fits 5 (by omega)]
    rfl

/-- Memory that agrees on the bytes of IN_BUF below `L` and within the frame shows the same frame. -/
theorem State.sameFrame_withMem {s : State} {m : Memory}
    (h : ∀ j, j < s.inLength → j ≤ 7 + s.inPayloadLength → State.inByte { s with mem := m } j = s.inByte j) :
    s.SameFrame { s with mem := m } where
  short_iff := by
    have hlen : State.inLength { s with mem := m } = s.inLength := rfl
    by_cases hov : s.inLength < 8
    · exact iff_of_true (State.short_of_lt_overhead hov) (State.short_of_lt_overhead hov)
    · have hn : State.inPayloadLength { s with mem := m } = s.inPayloadLength :=
        congrArg BitVec.toNat (h 5 (by omega) (by omega))
      rw [hn, hlen]
  bytes := fun hfits j hj => h j (by omega) hj

/-- Settles O26: memory alike on the frame, or any IN_LEN that covers it, shows DECODE the same frame, and the report
of a verdict looks at neither. -/
theorem decodeIgnoresBytesOutsideTheFrame : Obligations.DecodeIgnoresBytesOutsideTheFrame := by
  intro s t hs ht
  obtain rfl := Host.Outcome.next.inj ((exec_decode_untainted hs).symm.trans ht)
  obtain ⟨v, hv⟩ := s.exists_verdict
  rw [hv s (.refl s)]
  refine ⟨fun m hm => ?_, fun l hfits hl => ?_⟩
  · have hsame : s.SameFrame { s with mem := m } := State.sameFrame_withMem hm
    exact (exec_decode_untainted (s := { s with mem := m }) hs).trans (congrArg Host.Outcome.next (hv _ hsame))
  · have hsame : s.SameFrame { s with inLen := l } :=
      ⟨iff_of_false (not_lt.2 hl) (not_lt.2 hfits), fun _ _ _ => rfl⟩
    exact (exec_decode_untainted (s := { s with inLen := l }) hs).trans (congrArg Host.Outcome.next (hv _ hsame))

theorem exec_decode_tainted {s : State} (h : s.tainted = true) : exec .decode s = .next s.deframedTainted := by
  rw [exec, execDecode, if_pos h]

/-- Settles O27: a taint draws the three registers once, and an untainted DECODE reports a verdict. -/
theorem decodeFrame : Obligations.DecodeFrame := by
  intro s
  cases hs : s.tainted with
  | true =>
    exact ⟨s.deframedTainted, exec_decode_tainted hs, rfl, fun _ => rfl, nofun⟩
  | false =>
    obtain ⟨v, hv⟩ := s.exists_verdict
    have he : s.deframed = s.report v := hv s (.refl s)
    refine ⟨s.deframed, exec_decode_untainted hs, by rw [he]; rfl, fun a => by rw [he]; rfl, fun _ => ?_⟩
    exact ⟨by rw [he]; rfl, State.deframed_rx_of_failed⟩

/-- Settles O28: the state a DECODE leaves shows the same frame, and the same verdict reported again changes nothing. -/
theorem decodeTwiceIsDecodeOnce : Obligations.DecodeTwiceIsDecodeOnce := by
  intro s t hs ht
  obtain rfl := Host.Outcome.next.inj ((exec_decode_untainted hs).symm.trans ht)
  obtain ⟨v, hv⟩ := s.exists_verdict
  have hsame : s.SameFrame (s.report v) := ⟨Iff.rfl, fun _ _ _ => rfl⟩
  rw [hv s (.refl s), exec_decode_untainted rfl, hv _ hsame, State.report_report]

/-! ## A changed byte of a frame -/

theorem State.inByte_store_other (s : State) {i j : Nat} (v : Byte) (h : j ≠ i) :
    (s.store (inBase + i) v).inByte j = s.inByte j :=
  s.byteAt_store_other v (by omega)

@[simp] theorem State.inByte_store_same (s : State) (i : Nat) (v : Byte) : (s.store (inBase + i) v).inByte i = v :=
  s.byteAt_store_same _ v

@[simp] theorem State.inLength_store (s : State) (a : Nat) (v : Byte) : (s.store a v).inLength = s.inLength := rfl

theorem State.inPayloadLength_store (s : State) {i : Nat} (v : Byte) (h : i ≠ 5) :
    (s.store (inBase + i) v).inPayloadLength = s.inPayloadLength :=
  congrArg BitVec.toNat (s.inByte_store_other v h.symm)

theorem State.inPayloadLength_store_length (s : State) (v : Byte) :
    (s.store (inBase + 5) v).inPayloadLength = v.toNat :=
  congrArg BitVec.toNat (s.inByte_store_same 5 v)

/-- A flipped bit is another byte. -/
theorem xor_bit_ne (b : Byte) {k : Nat} (hk : k < 8) : b ^^^ (1#8 <<< k) ≠ b := by
  intro h
  have hbit : (b ^^^ (1#8 <<< k)).getLsbD k = b.getLsbD k := by rw [h]
  simp [hk] at hbit

section
variable {s : State} {i : Nat} {b : Byte}

/-- A frame with a byte changed that is no sentinel and not the length is a frame still. -/
theorem State.Framed.store (h : s.Framed) (hrange : 1 ≤ i ∧ i ≤ 6 + s.inPayloadLength) (h5 : i ≠ 5) :
    (s.store (inBase + i) b).Framed where
  fits := by rw [s.inPayloadLength_store b h5, State.inLength_store]; exact h.fits
  starts := by rw [s.inByte_store_other b (by omega), h.starts]
  ends := by rw [s.inPayloadLength_store b h5, s.inByte_store_other b (by omega), h.ends]

/-- A covered byte stored is one element of the covered bytes replaced. -/
theorem State.inCovered_store (hrange : 1 ≤ i) (h5 : i ≠ 5) :
    (s.store (inBase + i) b).inCovered = s.inCovered.set (i - 1) b := by
  rw [State.inCovered_eq_map, s.inPayloadLength_store b h5, State.inCovered_eq_map]
  refine List.ext_getElem (by simp) fun j _ hj => ?_
  rw [List.getElem_set]
  split_ifs with hij
  · obtain rfl : i = 1 + j := by omega
    simp
  · simpa using s.inByte_store_other b (by omega)

/-- The checksum sees every change of a covered byte, and of itself (41_framing.md R143). -/
theorem State.checksum_ne_of_store (hsum : crc8 s.inCovered = s.inByte (6 + s.inPayloadLength))
    (hrange : 1 ≤ i ∧ i ≤ 6 + s.inPayloadLength) (h5 : i ≠ 5) (hb : b ≠ s.inByte i) :
    crc8 (s.store (inBase + i) b).inCovered ≠
      (s.store (inBase + i) b).inByte (6 + (s.store (inBase + i) b).inPayloadLength) := by
  have hlength : s.inCovered.length = 5 + s.inPayloadLength := s.length_bytesAt _ _
  rw [State.inCovered_store hrange.1 h5, s.inPayloadLength_store b h5]
  by_cases hi : i = 6 + s.inPayloadLength
  · subst hi
    rw [List.set_eq_of_length_le (by omega), State.inByte_store_same, hsum]
    exact hb.symm
  · have hlt : i - 1 < s.inCovered.length := by omega
    have hget : s.inCovered[i - 1] = s.inByte i := by
      simp [State.inCovered_eq_map, show 1 + (i - 1) = i by omega]
    rw [s.inByte_store_other b (by omega), ← hsum, Ne, crc8_set_eq_iff hlt, hget]
    exact hb

/-- A frame that decodes OK reports CHECKSUM once a byte of it changes that is no sentinel and not the length. -/
theorem State.deframed_store_result (hok : s.deframed.result = 0x01)
    (hrange : 1 ≤ i ∧ i ≤ 6 + s.inPayloadLength) (h5 : i ≠ 5) (hb : b ≠ s.inByte i) :
    (s.store (inBase + i) b).deframed.result = 0x04 := by
  obtain ⟨hframed, hsum, -⟩ := State.framed_of_deframed_result_ok hok
  rw [(hframed.store hrange h5).deframed_of_wrongChecksum (State.checksum_ne_of_store hsum hrange h5 hb)]
  rfl

/-- A new length byte is judged by the length it declares: LEN where that exceeds `L`. -/
theorem State.deframed_store_length_short (h : s.inLength < 8 + b.toNat) :
    (s.store (inBase + 5) b).deframed.result = 0x02 := by
  rw [State.deframed_of_short (by rw [s.inPayloadLength_store_length]; exact h)]
  rfl

/-- A new length byte is judged by the length it declares: FORMAT where no end sentinel stands there. -/
theorem State.deframed_store_length_badEnd (hfits : 8 + b.toNat ≤ s.inLength)
    (hend : s.inByte (7 + b.toNat) ≠ endSentinel) : (s.store (inBase + 5) b).deframed.result = 0x03 := by
  have hn := s.inPayloadLength_store_length b
  have hbad : (s.store (inBase + 5) b).inByte (7 + (s.store (inBase + 5) b).inPayloadLength) ≠ endSentinel := by
    rwa [hn, s.inByte_store_other b (by omega)]
  rw [State.deframed_of_badSentinel (by rw [hn]; exact hfits) (.inr hbad)]
  rfl

/-- A frame that decodes OK reports FORMAT once its start sentinel changes. -/
theorem State.deframed_store_start (hok : s.deframed.result = 0x01) (hb : b ≠ startSentinel) :
    (s.store inBase b).deframed.result = 0x03 := by
  obtain ⟨hframed, -⟩ := State.framed_of_deframed_result_ok hok
  have hn : (s.store (inBase + 0) b).inPayloadLength = s.inPayloadLength := s.inPayloadLength_store b (by omega)
  have hbad : (s.store (inBase + 0) b).inByte 0 ≠ startSentinel := by rwa [State.inByte_store_same]
  have he := State.deframed_of_badSentinel (by rw [hn]; exact hframed.fits) (.inl hbad)
  exact congrArg State.result he

/-- A frame that decodes OK reports FORMAT once its end sentinel changes. -/
theorem State.deframed_store_end (hok : s.deframed.result = 0x01) (hb : b ≠ endSentinel) :
    (s.store (inBase + (7 + s.inPayloadLength)) b).deframed.result = 0x03 := by
  obtain ⟨hframed, -⟩ := State.framed_of_deframed_result_ok hok
  have hn := s.inPayloadLength_store (i := 7 + s.inPayloadLength) b (by omega)
  rw [State.deframed_of_badSentinel (by rw [hn]; exact hframed.fits) (.inr (by rwa [hn, State.inByte_store_same]))]
  rfl

end

/-- Settles O30: a changed sentinel is a wrong one, and the length stays. -/
theorem decodeDetectsEveryChangedSentinel : Obligations.DecodeDetectsEveryChangedSentinel := by
  intro s t v hs ht hok
  obtain rfl := Host.Outcome.next.inj ((exec_decode_untainted hs).symm.trans ht)
  exact ⟨fun hv => ⟨_, exec_decode_untainted hs, State.deframed_store_start hok hv⟩,
    fun hv => ⟨_, exec_decode_untainted hs, State.deframed_store_end hok hv⟩⟩

/-- A byte stored over a held frame replaces that element of the frame. -/
theorem State.HoldsFrame.inByte_store {s : State} {action : Byte} {payload : List Byte}
    (h : s.HoldsFrame action payload) (j : Nat) (b : Byte) {i : Nat} (hi : i < 8 + payload.length) :
    some ((s.store (inBase + j) b).inByte i) = ((frameOf action payload).set j b)[i]? := by
  by_cases hij : i = j
  · subst hij
    rw [State.inByte_store_same, List.getElem?_set_self (by rwa [length_frameOf])]
  · rw [s.inByte_store_other b hij, List.getElem?_set_ne (Ne.symm hij), h.bytes i hi]

/-- The frame of action 0x00 and payload `[p, 0x55]`. At length 0, one bit away from its own, `p` is the checksum byte
and the 0x55 after it the end sentinel (as in vector F-16). -/
def frameAroundAnEmptyOne (p : Byte) : State := frameLoaded Params.assumed 0x00 [p, 0x55]

theorem frameAroundAnEmptyOne_holdsFrame (p : Byte) : (frameAroundAnEmptyOne p).HoldsFrame 0x00 [p, 0x55] :=
  frameLoaded_holdsFrame (by simp) (by simp [Params.assumed])

theorem frameAroundAnEmptyOne_decodes (p : Byte) : (frameAroundAnEmptyOne p).deframed.result = 0x01 := by
  rw [(frameAroundAnEmptyOne_holdsFrame p).deframed]
  rfl

/-- Bit 1 of its length byte flipped, it declares length 0. -/
theorem frameAroundAnEmptyOne_flip (p : Byte) : (frameAroundAnEmptyOne p).inByte 5 ^^^ (1#8 <<< 1) = 0x00 := by
  rw [(frameAroundAnEmptyOne_holdsFrame p).inByte_five]
  exact (by decide : 2#8 ^^^ (1#8 <<< 1) = 0x00)

/-- At length 0 the covered bytes are zeros, so the frame decodes exactly when `p` is their CRC, 0x00. -/
theorem frameAroundAnEmptyOne_shortened (p : Byte) :
    ((frameAroundAnEmptyOne p).store (inBase + 5) 0x00).deframed.result = if p = 0x00 then 0x01 else 0x04 := by
  have hheld := frameAroundAnEmptyOne_holdsFrame p
  generalize hu : (frameAroundAnEmptyOne p).store (inBase + 5) 0x00 = u
  have hbyte {i : Nat} {b : Byte} (hi : i < 8) (hb : ((frameOf 0x00 [p, 0x55]).set 5 0x00)[i]? = some b) :
      u.inByte i = b :=
    hu ▸ Option.some.inj ((hheld.inByte_store 5 0x00 (Nat.lt_add_right 2 hi)).trans hb)
  have hn : u.inPayloadLength = 0 := hu ▸ State.inPayloadLength_store_length _ 0x00
  have hfits : 8 ≤ u.inLength := hu ▸ le_trans (Nat.le_add_right 8 2) hheld.fits
  have hframed : u.Framed :=
    ⟨by rw [hn]; exact hfits, hbyte (by omega) rfl, by rw [hn]; exact hbyte (by omega) rfl⟩
  have hcovered : u.inCovered = List.replicate 5 0x00 := by
    rw [u.inCovered_eq_map, hn]
    refine List.map_eq_replicate_iff.2 fun i hi => ?_
    obtain ⟨hlow, hhigh⟩ := List.mem_range'_1.1 hi
    interval_cases i <;> exact hbyte (by omega) rfl
  have hcrc : crc8 u.inCovered = 0x00 := by
    simp [hcovered, crc8, List.replicate, crc8Step_self]
  have hsum : u.inByte (6 + u.inPayloadLength) = p := by rw [hn]; exact hbyte (by omega) rfl
  split_ifs with hp
  · rw [hframed.deframed_of_rightChecksum (by rw [hcrc, hsum, hp])]
    rfl
  · rw [hframed.deframed_of_wrongChecksum (by rw [hcrc, hsum]; exact Ne.symm hp)]
    rfl

/-- Settles O29: a changed checksum or covered byte never keeps the checksum right, a changed length is judged as any
length is, and the frame around an empty one, with the right and with a wrong byte for the empty one's checksum. -/
theorem decodeDetectsEveryCoveredBitFlip : Obligations.DecodeDetectsEveryCoveredBitFlip := by
  refine ⟨fun s t i k hs ht hok hk => ?_, fun r hr => ?_⟩
  · obtain rfl := Host.Outcome.next.inj ((exec_decode_untainted hs).symm.trans ht)
    refine ⟨fun hi => ⟨_, exec_decode_untainted hs, ?_⟩, fun n' hn' => ⟨_, exec_decode_untainted hs, ?_⟩⟩
    · change _ ∨ (6 ≤ i ∧ i ≤ 6 + s.inPayloadLength) at hi
      exact State.deframed_store_result hok (by omega) (by omega) (xor_bit_ne _ hk)
    · subst hn'
      exact ⟨State.deframed_store_length_short, State.deframed_store_length_badEnd⟩
  · obtain ⟨p, rfl⟩ : ∃ p : Byte, (if p = 0x00 then 0x01 else 0x04) = r := by
      rcases List.mem_pair.1 hr with rfl | rfl
      · exact ⟨0x01, rfl⟩
      · exact ⟨0x00, rfl⟩
    refine ⟨frameAroundAnEmptyOne p, _, _, 1, by omega, rfl, exec_decode_untainted rfl,
      frameAroundAnEmptyOne_decodes p, exec_decode_untainted rfl, ?_⟩
    rw [frameAroundAnEmptyOne_flip, frameAroundAnEmptyOne_shortened]

end Sys2Proof.Machine
end

section
/-! SUPPORT. ENCODE (41_framing.md R151 to R159): the frame it leaves in OUT_BUF, which bytes it reads, and what it
leaves unchanged. -/

namespace Sys2Proof.Machine

/-! ## The outcome of the length check -/

section
variable {s : State}

/-- A payload that does not fit (41_framing.md R152, R157). -/
theorem State.enframed_of_tooLong (h : 255 < pairValue s.txPlen ∨ s.params.outCap < 8 + pairValue s.txPlen) :
    s.enframed = s.complete .len := by
  rcases s.enframed_cases with ⟨-, he⟩ | ⟨hmax, hfit, -⟩
  · exact he
  · exact absurd h (not_or.2 ⟨not_lt.2 hmax, not_lt.2 hfit⟩)

/-- A payload that fits is framed (41_framing.md R151, R153 to R156). -/
theorem State.enframed_of_fits (hmax : pairValue s.txPlen ≤ 255) (hfit : 8 + pairValue s.txPlen ≤ s.params.outCap) :
    s.enframed = { s.storeBytes outBase s.outImage with
      crc := crc8 (frameBody s.txAction s.outPayload)
      txFlen := pairOf (8 + pairValue s.txPlen) }.complete .ok := by
  rcases s.enframed_cases with ⟨hlong, -⟩ | ⟨-, -, he⟩
  · exact absurd hlong (not_or.2 ⟨not_lt.2 hmax, not_lt.2 hfit⟩)
  · exact he

end

/-- Settles O32: either length check, and the whole next state is the completion with LEN. -/
theorem encodeTooLongReportsLen : Obligations.EncodeTooLongReportsLen := by
  intro s hs hlong
  rw [exec_encode_untainted hs, State.enframed_of_tooLong hlong]
  rfl

theorem exec_encode_tainted {s : State} (h : s.tainted = true) : exec .encode s = .next s.enframedTainted := by
  rw [exec, execEncode, if_pos h]

/-- Settles O33: the bytes an ENCODE stores are the OUT_CAP bytes of OUT_BUF, be they free values or the image. -/
theorem encodeFrame : Obligations.EncodeFrame := by
  intro s
  cases hs : s.tainted with
  | true =>
    refine ⟨s.enframedTainted, exec_encode_tainted hs, rfl, fun a ha => ?_, nofun⟩
    exact s.byteAt_storeBytes_outside _ (by simp only [List.length_map, List.length_range']; omega)
  | false =>
    refine ⟨s.enframed, exec_encode_untainted hs, ?_⟩
    rcases s.enframed_cases with ⟨-, he⟩ | ⟨-, hfit, he⟩ <;> rw [he]
    · exact ⟨rfl, fun _ _ => rfl, fun _ => rfl⟩
    · refine ⟨rfl, fun a ha => ?_, fun _ => rfl⟩
      exact s.byteAt_storeBytes_outside _ (by rw [State.length_outImage hfit]; omega)

/-! ## The bytes of the frame built -/

/-- The staged payload, byte by byte (41_framing.md R151). -/
theorem State.outPayload_eq_map (s : State) : s.outPayload = (List.range (pairValue s.txPlen)).map s.plByte := by
  rw [State.outPayload, State.plBytes, State.bytesAt, List.range'_eq_map_range, List.map_map]
  rfl

theorem State.outPayload_getElem? (s : State) {k : Nat} (h : k < pairValue s.txPlen) :
    s.outPayload[k]? = some (s.plByte k) := by
  simp [s.outPayload_eq_map, h]

/-- ENCODE reads memory through the payload's bytes alone (41_framing.md R159). -/
theorem State.outPayload_congr {s t : State} (hlen : t.txPlen = s.txPlen)
    (h : ∀ k, k < pairValue s.txPlen → t.plByte k = s.plByte k) : t.outPayload = s.outPayload := by
  rw [s.outPayload_eq_map, t.outPayload_eq_map, hlen]
  exact List.map_congr_left fun k hk => h k (List.mem_range.1 hk)

/-- The covered bytes read back out of the whole frame. -/
theorem map_eq_frameBody {f : Nat → Byte} {action : Byte} {payload : List Byte}
    (h : ∀ i, i < 8 + payload.length → (frameOf action payload)[i]? = some (f i)) :
    (List.range' 1 (5 + payload.length)).map f = frameBody action payload := by
  refine List.ext_getElem (by simp [length_frameBody]) fun i _ hi => ?_
  rw [length_frameBody] at hi
  have hb := h (1 + i) (by omega)
  rw [frameOf_getElem?_body action payload hi, List.getElem?_eq_getElem] at hb
  simpa using (Option.some.inj hb).symm

section
variable {s : State} (hmax : pairValue s.txPlen ≤ 255) (hfit : 8 + pairValue s.txPlen ≤ s.params.outCap)
include hmax hfit

/-- A successful ENCODE leaves its frame in OUT_BUF (41_framing.md R151). -/
theorem State.frameOf_getElem?_enframed {i : Nat} (hi : i < 8 + pairValue s.txPlen) :
    (frameOf s.txAction s.outPayload)[i]? = some (s.enframed.outByte i) := by
  have hlt : i < (frameOf s.txAction s.outPayload).length := by rwa [length_frameOf, s.length_outPayload]
  rw [State.outByte_enframed hmax hfit (by omega), s.outImage_frame hi, List.getElem?_eq_getElem hlt, Option.getD_some]

/-- A successful ENCODE leaves zeros after its frame (41_framing.md R153). -/
theorem State.outByte_enframed_beyond {i : Nat} (hlow : 8 + pairValue s.txPlen ≤ i) (hi : i < s.params.outCap) :
    s.enframed.outByte i = 0x00 := by
  rw [State.outByte_enframed hmax hfit hi, s.outImage_beyond hlow]

theorem State.map_outByte_enframed :
    (List.range' 1 (5 + pairValue s.txPlen)).map s.enframed.outByte = frameBody s.txAction s.outPayload := by
  rw [← s.length_outPayload]
  exact map_eq_frameBody fun i hi => State.frameOf_getElem?_enframed hmax hfit (by rwa [← s.length_outPayload])

theorem State.enframed_crc : s.enframed.crc = crc8 (frameBody s.txAction s.outPayload) := by
  rw [State.enframed_of_fits hmax hfit]
  rfl

/-- TX_FLEN is the length of the frame (41_framing.md R156). -/
theorem State.enframed_txFlen : pairValue s.enframed.txFlen = 8 + pairValue s.txPlen := by
  rw [State.enframed_of_fits hmax hfit]
  exact pairValue_pairOf (by omega)

end

/-- Settles O31: each byte is the frame's byte at its place. -/
theorem encodeBuildsTheFrame : Obligations.EncodeBuildsTheFrame := by
  rintro s _ hs rfl hmax hfit
  have hbyte {i : Nat} {b : Byte} (hi : i < 8 + pairValue s.txPlen)
      (hb : (frameOf s.txAction s.outPayload)[i]? = some b) : s.enframed.outByte i = b :=
    Option.some.inj ((State.frameOf_getElem?_enframed hmax hfit hi).symm.trans hb)
  have hlen := s.length_outPayload
  refine ⟨_, exec_encode_untainted hs, s.enframed_result_ok_iff.2 ⟨hmax, hfit⟩, s.completes_enframed.pending,
    hbyte (by omega) rfl, hbyte (by omega) rfl, hbyte (by omega) rfl, hbyte (by omega) rfl, hbyte (by omega) rfl,
    ?_, fun k hk => ?_, ?_, ?_, ?_, fun i hlow hi => State.outByte_enframed_beyond hmax hfit hlow hi,
    State.enframed_txFlen hmax hfit⟩
  · exact hbyte (by omega) (by rw [← hlen]; rfl)
  · refine hbyte (by omega) ?_
    rw [frameOf_getElem?_payload _ _ (by omega), s.outPayload_getElem? hk]
  · rw [State.map_outByte_enframed hmax hfit, ← hlen]
    exact hbyte (by omega) (frameOf_getElem?_checksum _ _)
  · rw [State.map_outByte_enframed hmax hfit, State.enframed_crc hmax hfit]
  · rw [← hlen]
    exact hbyte (by omega) (frameOf_getElem?_end _ _)

/-! ## What ENCODE reads -/

/-- Settles O34: the same payload gives the same image, and CRC and TX_FLEN come from it and TX_PLEN. -/
theorem encodeReadsOnlyThePayload : Obligations.EncodeReadsOnlyThePayload := by
  intro s t m hs ht hok hpayload
  obtain rfl := Host.Outcome.next.inj ((exec_encode_untainted hs).symm.trans ht)
  obtain ⟨hmax, hfit⟩ := s.enframed_result_ok_iff.1 hok
  have hsame : State.outPayload { s with mem := m } = s.outPayload :=
    State.outPayload_congr rfl hpayload
  have himage : State.outImage { s with mem := m } = s.outImage := by
    simp only [State.outImage, hsame]
  refine ⟨_, exec_encode_untainted (s := { s with mem := m }) hs, ?_, ?_, ?_, fun i hi => ?_⟩
  · exact (State.enframed_result_ok_iff { s with mem := m }).2 ⟨hmax, hfit⟩
  · rw [State.enframed_crc hmax hfit, State.enframed_crc (s := { s with mem := m }) hmax hfit, hsame]
  · rw [State.enframed_of_fits hmax hfit, State.enframed_of_fits (s := { s with mem := m }) hmax hfit]; rfl
  · rw [State.outByte_enframed hmax hfit hi, State.outByte_enframed (s := { s with mem := m }) hmax hfit hi, himage]

/-- Settles O36: IN_BUF holds the frame of the action and the payload, and a held frame decodes. -/
theorem decodeOfEncodeRoundTrip : Obligations.DecodeOfEncodeRoundTrip := by
  intro s t u hs ht hok hu hinLen hcap hbytes
  obtain rfl := Host.Outcome.next.inj ((exec_encode_untainted hs).symm.trans ht)
  obtain ⟨hmax, hfit⟩ := s.enframed_result_ok_iff.1 hok
  rw [State.enframed_txFlen hmax hfit] at hinLen hcap hbytes
  have hlen := s.length_outPayload
  have hheld : u.HoldsFrame s.txAction s.outPayload :=
    { short := by omega
      fits := by rw [hlen, State.inLength, hinLen]; exact le_min le_rfl hcap
      bytes := fun i hi => by
        rw [hlen] at hi
        rw [hbytes i hi, State.frameOf_getElem?_enframed hmax hfit hi] }
  refine ⟨_, exec_decode_untainted hu, ?_⟩
  rw [hheld.deframed, State.enframed_crc hmax hfit]
  refine ⟨rfl, rfl, ?_, fun k hk => ?_, rfl⟩
  · rw [State.complete_rxPlen, hlen, BitVec.toNat_ofNat, Nat.mod_eq_of_lt (by omega)]
  · have hb := hheld.bytes (6 + k) (by omega)
    rw [frameOf_getElem?_payload _ _ (by omega), s.outPayload_getElem? hk] at hb
    exact (Option.some.inj hb).symm

end Sys2Proof.Machine
end

section
/-! SUPPORT. What a step refuses: a cycle of a second master or of another width in the window, and a bus word that
encodes no access, and nothing else (60_exceptions.md R170, R180). -/

namespace Sys2Proof.Machine

section
variable {s : State} {c : BusCycle} {rest : List Input} {off : Offset} {r : Refusal}

/-- A cycle in the window that is not the host's is refused before its width is looked at (60_exceptions.md R180). -/
theorem fetchCycle_secondMaster (hother : c.master ≠ .host) (haddr : c.addr = s.params.base + off.toNat) :
    fetchCycle s c rest = .refuse .secondMaster := by
  rw [fetchCycle, if_pos (touchesWindow_of_addr haddr), if_pos hother]

/-- A bus word that encodes an access is fetched as that access. -/
theorem fetchInput_word {w : BusWord} {i : Instr} (hin : s.inputs = .word w :: rest) (hi : decode (.bus20 w) = .ok i) :
    fetchInput s = .run i (s.atAccess rest) := by
  simp [fetchInput, hin, fetchWord, hi]

/-- A refused input is a bus word that encodes no access, or a cycle touching the window that is not the host's or not
of 8 bits. -/
theorem fetchInput_refuse_cases (h : fetchInput s = .refuse r) :
    (∃ w rest, s.inputs = .word w :: rest ∧ ∀ i, decode (.bus20 w) ≠ .ok i) ∨
    (∃ c rest, s.inputs = .cycle c :: rest ∧ touchesWindow s.params c = true ∧ (c.master ≠ .host ∨ c.bits ≠ 8)) := by
  rcases fetchInput_cases s with ⟨-, hf⟩ | ⟨w, rest, i, -, -, hf⟩ | ⟨w, rest, hin, hf⟩ | ⟨rest, -, hf⟩ |
    ⟨c, rest, off, -, -, -, -, hf⟩ | ⟨c, rest, -, hf⟩ | ⟨c, rest, r, hin, htouch, hother, hf⟩ | ⟨rest, -, hf⟩ <;>
    cases hf.symm.trans h
  · refine .inl ⟨w, rest, hin, fun i hi => ?_⟩
    simp [fetchInput_word hin hi] at hf
  · exact .inr ⟨c, rest, hin, htouch, hother⟩

/-- Only an input is refused: a due completion runs its command, whatever the code. -/
theorem fetch_refuse (h : fetch s = .refuse r) : s.takesInput ∧ fetchInput s = .refuse r := by
  by_cases hnext : s.pending = none ∨ (0 < s.left ∧ s.inputs ≠ [])
  · exact ⟨hnext.imp_right And.left, (fetch_eq_fetchInput hnext).symm.trans h⟩
  · obtain ⟨hbusy, hdue⟩ := not_or.1 hnext
    obtain ⟨p, hp⟩ := Option.ne_none_iff_exists'.1 hbusy
    have hcompletion : fetch s = .run (decodeCmd p.op) s :=
      fetch_completion hp ((not_and_or.1 hdue).imp Nat.eq_zero_of_not_pos not_not.1)
    simp [hcompletion] at h

/-- A step has a next state unless its fetch refuses: no instruction stops the machine. -/
theorem step_next_of_fetch_ne_refuse (h : ∀ r, fetch s ≠ .refuse r) : ∃ t, step s = .next t := by
  cases hf : fetch s with
  | run i t => rw [step, hf]; exact exec_next i t
  | settle t => exact ⟨t, by rw [step, hf]⟩
  | refuse r => exact absurd hf (h r)

end

/-- Settles O42: the cycle's fetch in the window, from a master that is not the host. -/
theorem secondMasterIsRefused : Obligations.SecondMasterIsRefused := by
  intro s c rest off hin htakes haddr hother
  have hmaster : c.master ≠ .host := by rw [hother]; decide
  rw [step, fetch_cycle hin htakes, fetchCycle_secondMaster hmaster haddr]

/-- Settles O43: a step stops only where its fetch refuses, which takes an input of one of the two excluded kinds. -/
theorem noCommandOrAccessStopsTheMachine : Obligations.NoCommandOrAccessStopsTheMachine := by
  intro s hcycle hword
  refine step_next_of_fetch_ne_refuse fun r hrefuse => ?_
  obtain ⟨htakes, hinput⟩ := fetch_refuse hrefuse
  rcases fetchInput_refuse_cases hinput with ⟨w, rest, hin, hnone⟩ | ⟨c, rest, hin, htouch, hother⟩
  · obtain ⟨i, hi⟩ := hword htakes w rest hin
    exact hnone i hi
  · rcases hcycle htakes c rest hin with ⟨hhost, hbits⟩ | hout
    · exact hother.elim (· hhost) (· hbits)
    · rw [touchesWindow_iff] at htouch
      omega

end Sys2Proof.Machine
end

section
/-! SUPPORT. Reset, and the hazards of a pending command: host reads of its outputs, host writes of its inputs and of
the rest, and the completion of a tainted one (70_reset_and_hazards.md). -/

namespace Sys2Proof.Machine

/-! ## The completion of a tainted command -/

section
variable {s : State}

theorem exec_crcUpdate_tainted (h : s.tainted = true) :
    exec .crcUpdate s = .next { s with
      crc := Config.freeByte s.draws 0x003, result := 0x01, pending := none, draws := s.draws + 1 } := by
  rcases execCrcUpdate_cases s with ⟨hs, -⟩ | ⟨-, he⟩
  · simp [h] at hs
  · exact he

/-- A tainted ENCODE leaves in each byte of OUT_BUF its own free value. -/
theorem State.outByte_enframedTainted {i : Nat} (hi : i < s.params.outCap) :
    s.enframedTainted.outByte i = Config.freeByte s.draws (outBase + i) := by
  have hbyte : (s.storeBytes outBase ((List.range' outBase s.params.outCap).map s.freeAt)).byteAt (outBase + i) =
      s.freeAt (outBase + i) := by
    rw [s.byteAt_storeBytes_getElem outBase _ (by simpa using hi), List.getElem_map, List.getElem_range'_1]
  exact hbyte

/-- A tainted ENCODE stores in OUT_BUF alone. -/
theorem State.byteAt_enframedTainted_outside {a : Nat} (ha : a < outBase ∨ outBase + s.params.outCap ≤ a) :
    s.enframedTainted.byteAt a = s.byteAt a :=
  s.byteAt_storeBytes_outside _ (by simpa using ha)

end

/-- Settles O37: the free values each command draws for its outputs, and a code picked from its legal ones. -/
theorem taintedCommandLeavesFreeOutputs : Obligations.TaintedCommandLeavesFreeOutputs := by
  intro s hs
  refine ⟨⟨_, exec_crcUpdate_tainted hs, rfl, rfl, rfl⟩, ⟨s.deframedTainted, exec_decode_tainted hs, ?_⟩,
    ⟨s.enframedTainted, exec_encode_tainted hs, ?_⟩⟩
  · exact ⟨s.completes_deframedTainted.result, rfl, rfl, rfl, rfl⟩
  · exact ⟨s.completes_enframedTainted.result, rfl, rfl, fun _ => State.outByte_enframedTainted,
      fun _ => State.byteAt_enframedTainted_outside, rfl⟩

/-! ## The hazards of the pending command -/

section
variable {s : State} {p : Pending} {off : Offset}

/-- The input hazard of a pending command is its row of the operand table (30_encoding.md R84). -/
theorem State.inputHazard_busy (hp : s.pending = some p) (t : Target) :
    s.inputHazard t = isInput (decodeCmd p.op) t := by
  rw [State.inputHazard, hp]

/-- The output hazard of a pending command is its row of the operand table (30_encoding.md R84). -/
theorem State.outputHazard_busy (hp : s.pending = some p) (t : Target) :
    s.outputHazard t = isOutput (decodeCmd p.op) t := by
  rw [State.outputHazard, hp]

/-- RESULT is the one output of an illegal command (log 11). -/
theorem State.outputHazard_illegal (hp : s.pending = some p) (hop : p.op ∉ commandCodes) (t : Target) :
    s.outputHazard t = (t == .reg .result) := by
  rw [State.outputHazard_busy hp, decodeCmd_illegal (by simpa using hop), isOutput]

/-- A read of an output of the pending command answers a free byte (70_reset_and_hazards.md R213). -/
theorem exec_rd_free (h : s.outputHazard (s.targetOf off) = true) :
    exec (.rd off) s = .next { s with
      answer := some (Config.freeByte s.draws off.toNat), draws := s.draws + 1 } := by
  rcases s.hostRead_cases off with ⟨-, hread⟩ | ⟨hz, -⟩
  · exact congrArg Host.Outcome.next hread
  · simp [h] at hz

/-- While a command is pending a write of CMD is ignored (70_reset_and_hazards.md R211). -/
theorem exec_wr_cmd_busy (hbusy : s.pending ≠ none) (v : Byte) : exec (.wr 0x000 v) s = .next s := by
  have ht : s.targetOf 0x000 = .reg .cmd := State.targetOf_reg .cmd rfl
  have hsame : s.hostWrite 0x000 v = s := by
    rw [s.hostWrite_cmd v ht, State.writeCmd, State.busy, if_pos (Option.isSome_iff_ne_none.2 hbusy)]
  exact congrArg Host.Outcome.next hsame

/-- CMD is write-only: it is none of the bytes the host may both read and write (20_memory.md R52). -/
theorem ne_cmd_of_writable {t : Target}
    (h : (∃ r, t = .reg r ∧ regAccess r = .rw) ∨ (∃ k, t = .plBuf k) ∨ (∃ k, t = .inBuf k)) : t ≠ .reg .cmd := by
  rintro rfl
  rcases h with ⟨r, hr, hacc⟩ | ⟨k, hk⟩ | ⟨k, hk⟩
  · obtain rfl := Target.reg.inj hr
    exact absurd hacc (by decide)
  · simp at hk
  · simp at hk

/-- A write of an input of the pending command stores in its target and taints the command (70_reset_and_hazards.md
R212). -/
theorem exec_wr_tainting (v : Byte) (hcmd : s.targetOf off ≠ .reg .cmd)
    (hz : s.inputHazard (s.targetOf off) = true) :
    exec (.wr off v) s = .next (s.writeTarget v (s.targetOf off)).taint := by
  have hwrite : s.hostWrite off v = (s.writeTarget v (s.targetOf off)).taint := by
    rw [s.hostWrite_other v hcmd, if_pos hz]
  exact congrArg Host.Outcome.next hwrite

end

/-- A taint shows in no byte of the window: BUSY stays as it was. -/
theorem State.readTarget_taint (s : State) (t : Target) : s.taint.readTarget t = s.readTarget t := by
  cases t with
  | reg r =>
    by_cases hr : r = .status
    · subst hr
      simp [State.readTarget, State.readReg, State.statusByte_eq]
    · exact s.readReg_taint hr
  | plBuf i | inBuf i | outBuf i | reserved => rfl

/-- Settles O5: an output of the pending command is its output hazard, and STATUS is 0x01 while it is pending. -/
theorem outputReadWhileBusyIsFree : Obligations.OutputReadWhileBusyIsFree := by
  intro s p off hp _
  rw [← State.outputHazard_busy hp]
  refine ⟨exec_rd_free, ?_, exec_rd_exact⟩
  rintro rfl
  rw [exec_rd_status, s.statusByte_eq, hp]
  rfl

/-- Settles O6: RESULT is the output hazard, and no other offset names it. -/
theorem resultReadWhileIllegalPendingIsFree : Obligations.ResultReadWhileIllegalPendingIsFree := by
  intro s p off hp hop
  have hhazard := State.outputHazard_illegal hp hop (s.targetOf off)
  constructor
  · rintro rfl
    refine exec_rd_free (off := 0x002) ?_
    rw [hhazard, State.targetOf_reg .result rfl]
    rfl
  · intro hoff
    refine exec_rd_exact ?_
    rw [hhazard, beq_eq_false_iff_ne]
    exact State.targetOf_ne_reg rfl hoff

/-- Settles O14: the start from idle sets the pending command and its schedule, and while busy nothing happens. -/
theorem commandWriteAcceptedOnlyWhenIdle : Obligations.CommandWriteAcceptedOnlyWhenIdle :=
  fun s v => ⟨fun hidle => ⟨s.start v, exec_wr_cmd_idle hidle v, rfl, rfl, rfl, rfl⟩,
    fun hbusy => exec_wr_cmd_busy hbusy v⟩

/-- Settles O15: an input is a byte the host may write, which reads back as written, tainted or not. -/
theorem inputWriteTaintsThePendingCommand : Obligations.InputWriteTaintsThePendingCommand := by
  intro s p off v hp hinput
  have hwritable := isInput_writable hinput
  have hz : s.inputHazard (s.targetOf off) = true := (State.inputHazard_busy hp _).trans hinput
  refine ⟨_, exec_wr_tainting v (ne_cmd_of_writable hwritable) hz, ?_, ?_, ?_⟩
  · simp [hp]
  · rw [State.readTarget_taint, s.readTarget_writeTarget v hwritable]
  · simp

/-- Settles O16: away from the inputs the write stores in its target alone, which reads back as written. -/
theorem writeOfNonInputLeavesThePendingCommand : Obligations.WriteOfNonInputLeavesThePendingCommand := by
  intro s p off v hp hinput hwritable
  have hz : s.inputHazard (s.targetOf off) = false := (State.inputHazard_busy hp _).trans hinput
  exact ⟨_, exec_wr_exact v rfl (ne_cmd_of_writable hwritable) hz, by simp [hp], by simp,
    s.readTarget_writeTarget v hwritable⟩

/-! ## Reset -/

/-- The reset input is taken as the next input, whatever is pending (70_reset_and_hazards.md R200). -/
theorem step_reset {s : State} {rest : List Input} (hin : s.inputs = .reset :: rest) (htakes : s.takesInput) :
    step s = .next (s.withInputs rest).applyReset := by
  have hnext : fetch s = fetchInput s :=
    fetch_eq_fetchInput (htakes.imp_right fun hleft => ⟨hleft, by simp [hin]⟩)
  rw [step, hnext, fetchInput, hin]

/-- Settles O2: each register by its value in `State.reset`, and each buffer byte by the draw reset takes. -/
theorem resetInputResetsRegistersAndFreesBuffers : Obligations.ResetInputResetsRegistersAndFreesBuffers := by
  intro s rest hin htakes
  exact ⟨_, step_reset hin htakes, rfl, rfl, rfl, rfl, rfl, rfl, rfl, rfl, rfl, rfl, rfl, rfl, rfl,
    (s.withInputs rest).byteAt_applyReset⟩

end Sys2Proof.Machine
end
